-- ==== Sys2Proof/Word.lean ====
section
/-! DEFINITION. The three word sizes of the libscrc CRC32 core (spec/00_scope.md R7, R9; spec/30_encoding.md R66). -/

namespace Sys2Proof

/-- An unsigned 32-bit value: polynomial, accumulator, table entry, mask, response (R7 `W`, R9). -/
abbrev Word := BitVec 32

/-- The data unit, and the index of a table entry (R7). -/
abbrev Byte := BitVec 8

/-- One command word as it stands on the port `cmd` (R66). -/
abbrev CmdWord := BitVec 40

end Sys2Proof
end

