-- ==== Sys2Proof/Config.lean ====
section
/-! DEFINITION. What is fixed for the machine (spec/00_scope.md R7, R8) and the values the spec leaves free. -/

namespace Sys2Proof.Config

/-- `POLY_M`, the named polynomial of slot `M` (R7). -/
def polyM : Word := 0x04C11DB7

/-- `POLY_L`, the named polynomial of slot `L` (R7). -/
def polyL : Word := 0xEDB88320

/-- `INIT_DEFAULT`, the default initial accumulator (R7), also the reset value of `ACC` (R34). -/
def initDefault : Word := 0xFFFFFFFF

/-- `XOROUT_MPEG2` (R7). -/
def xoroutMpeg2 : Word := 0x00000000

/-- `XOROUT_CRC32` (R7). -/
def xoroutCrc32 : Word := 0xFFFFFFFF

/-- `XOROUT_HACKER_DEFAULT` (R7). -/
def xoroutHackerDefault : Word := 0x00000000

/-- `POLY_HACKER_DEFAULT` (R7). -/
def polyHackerDefault : Word := 0xEDB88320

/-- `NENT`, the number of entries of a table (R7). -/
def nent : Nat := 256

/-- `NITER`, the generator's iterations per entry (R7). -/
def niter : Nat := 8

/-- What `GPOLY` holds after reset, which R34 leaves unspecified: a free value, under no law.
DESIGN CHOICE, safe (notes/assumptions/1.md). -/
opaque gpolyAtReset : Word

/-- `T_BUILD`, the time a table build takes: finite and otherwise unconstrained (R8, R182). -/
opaque tBuild : Nat

/-- `T_CMD(op)`, the time any other command takes: finite and otherwise unconstrained (R8, R182). -/
opaque tCmd : BitVec 8 → Nat

end Sys2Proof.Config
end

