-- ==== Sys2Proof/Syntax.lean ====
section
/-! DEFINITION. The commands of the block: one constructor of `Instr` per row of spec/opcode_table.json
(spec/30_encoding.md R68), their operand forms (R67), and the assembler's command before it is checked (R73). -/

namespace Sys2Proof

/-- One command with its operand (R68). The operand's type is the value the form reads (R67), so an index or a data
byte outside 0 to 255 cannot be written down (spec/20_memory.md R45). -/
inductive Instr where
  /-- `SELM`: select the named slot of `0x04C11DB7`. -/
  | selm
  /-- `SELL`: select the named slot of `0xEDB88320`. -/
  | sell
  /-- `SELG p`: select the generic slot for the polynomial `p`. -/
  | selg (p : Word)
  /-- `SETACC v`: create the accumulator. -/
  | setacc (v : Word)
  /-- `BYTE b`: one update step. -/
  | byte (b : Byte)
  /-- `GETCRC x`: respond the accumulator XOR `x`. -/
  | getcrc (x : Word)
  /-- `RDTBL i`: respond entry `i` of the active table. -/
  | rdtbl (i : Byte)
deriving DecidableEq, Repr

/-- The seven operations without their operands (R68). -/
inductive Mnemonic where
  | selm | sell | selg | setacc | byte | getcrc | rdtbl
deriving DecidableEq, Repr

/-- The operand forms of R67. -/
inductive Form where
  /-- No operand. -/
  | z
  /-- A 32-bit unsigned value. -/
  | u32
  /-- An 8-bit unsigned value. -/
  | u8
deriving DecidableEq, Repr

/-- A command as the assembler reads it, before its operand is checked against the operation's form (R73). -/
structure Source where
  /-- The operation named. -/
  mnemonic : Mnemonic
  /-- The value of the literal, where one is written. -/
  operand : Option Nat
deriving DecidableEq, Repr

end Sys2Proof
end

