-- ==== Sys2Proof/WellFormed.lean ====
section
/-! DEFINITION. When a command is well formed: its operand fits the form of its operation (spec/30_encoding.md R67, R68,
R73). -/

namespace Sys2Proof

/-- The form column of R68. -/
def Mnemonic.form : Mnemonic → Form
  | .selm => .z
  | .sell => .z
  | .selg => .u32
  | .setacc => .u32
  | .byte => .u8
  | .getcrc => .u32
  | .rdtbl => .u8

/-- Which literals fit a form: none for `Z`, a value below 2^32 for `U32`, below 256 for `U8` (R73). -/
def Form.fits : Form → Option Nat → Bool
  | .z, none => true
  | .z, some _ => false
  | .u32, none => false
  | .u32, some n => n < 2 ^ 32
  | .u8, none => false
  | .u8, some n => n < 256

/-- The assembler's check: a literal that does not fit is rejected, never truncated (R73). -/
def Source.wf (c : Source) : Bool :=
  c.mnemonic.form.fits c.operand

/-- The operation of a command. -/
def Instr.mnemonic : Instr → Mnemonic
  | .selm => .selm
  | .sell => .sell
  | .selg _ => .selg
  | .setacc _ => .setacc
  | .byte _ => .byte
  | .getcrc _ => .getcrc
  | .rdtbl _ => .rdtbl

/-- The command as the assembler would read it. -/
def Instr.source : Instr → Source
  | .selm => ⟨.selm, none⟩
  | .sell => ⟨.sell, none⟩
  | .selg p => ⟨.selg, some p.toNat⟩
  | .setacc v => ⟨.setacc, some v.toNat⟩
  | .byte b => ⟨.byte, some b.toNat⟩
  | .getcrc x => ⟨.getcrc, some x.toNat⟩
  | .rdtbl i => ⟨.rdtbl, some i.toNat⟩

/-- The operand form of a command (R68). -/
def Instr.form (i : Instr) : Form :=
  i.mnemonic.form

/-- A command is well formed when its operand fits its form. The operand types of `Instr` make this hold of every
command (`Sys2Proof.Laws.FitsForm`). -/
def Instr.wf (i : Instr) : Bool :=
  i.source.wf

end Sys2Proof
end

