-- ==== Sys2Proof/Decode.lean ====
section
/-! DEFINITION. The command word: its fields (spec/30_encoding.md R66), the operand forms (R67), the opcode map (R68),
the decoder, total and rejecting every reserved word by name (R69, R70), and the encoder. -/

namespace Sys2Proof

/-- `op = cmd[39:32]` (R66). -/
def opField (w : CmdWord) : BitVec 8 :=
  w.extractLsb' 32 8

/-- `arg = cmd[31:0]` (R66). -/
def argField (w : CmdWord) : Word :=
  w.extractLsb' 0 32

/-- `arg[7:0]`, what the form `U8` reads (R67). -/
def argByte (a : Word) : Byte :=
  a.extractLsb' 0 8

/-- `zext_32(b)`: the byte with bits 31:8 zero (spec/00_scope.md R10). -/
def zext32 (b : Byte) : Word :=
  b.setWidth 32

/-- When an operand field is legal for a form (R67). -/
def Form.legal : Form → Word → Bool
  | .z, a => a == 0
  | .u32, _ => true
  | .u8, a => a.extractLsb' 8 24 == 0

/-- Why a word is reserved: the four classes of R69. -/
inductive Reserved where
  /-- `op = 0x00`. -/
  | opZero
  /-- `op` in `0x08..0xFF`. -/
  | opAboveSeven
  /-- `op` in {`0x01`, `0x02`} with `arg` not zero. -/
  | operandNotZero
  /-- `op` in {`0x05`, `0x07`} with `arg[31:8]` not zero. -/
  | operandAboveByte
deriving DecidableEq, Repr

/-- What the decoder makes of a word: one of the seven commands or `Illegal` (R70). -/
inductive Decoded where
  | command (i : Instr)
  | illegal (r : Reserved)
deriving DecidableEq, Repr

/-- The decoding function of R70. -/
def decode (w : CmdWord) : Decoded :=
  if opField w = 0x01 then
    if Form.z.legal (argField w) then .command .selm else .illegal .operandNotZero
  else if opField w = 0x02 then
    if Form.z.legal (argField w) then .command .sell else .illegal .operandNotZero
  else if opField w = 0x03 then .command (.selg (argField w))
  else if opField w = 0x04 then .command (.setacc (argField w))
  else if opField w = 0x05 then
    if Form.u8.legal (argField w) then .command (.byte (argByte (argField w))) else .illegal .operandAboveByte
  else if opField w = 0x06 then .command (.getcrc (argField w))
  else if opField w = 0x07 then
    if Form.u8.legal (argField w) then .command (.rdtbl (argByte (argField w))) else .illegal .operandAboveByte
  else if opField w = 0x00 then .illegal .opZero
  else .illegal .opAboveSeven

/-- The operation codes of R68. -/
def Mnemonic.opcode : Mnemonic → BitVec 8
  | .selm => 0x01
  | .sell => 0x02
  | .selg => 0x03
  | .setacc => 0x04
  | .byte => 0x05
  | .getcrc => 0x06
  | .rdtbl => 0x07

/-- The operand field of a command: zero for `Z`, the value for `U32`, `zext_32` of it for `U8` (R70). -/
def Instr.arg : Instr → Word
  | .selm => 0
  | .sell => 0
  | .selg p => p
  | .setacc v => v
  | .byte b => zext32 b
  | .getcrc x => x
  | .rdtbl i => zext32 i

/-- A word from its two fields, `op` in the upper byte (R66). -/
def mkWord (op : BitVec 8) (arg : Word) : CmdWord :=
  op ++ arg

/-- The encoder of R70. -/
def encode (i : Instr) : CmdWord :=
  mkWord i.mnemonic.opcode i.arg

/-- The `match` value of an operation's row (R68, spec/opcode_table.json). -/
def Mnemonic.rowMatch : Mnemonic → CmdWord
  | .selm => 0x0100000000
  | .sell => 0x0200000000
  | .selg => 0x0300000000
  | .setacc => 0x0400000000
  | .byte => 0x0500000000
  | .getcrc => 0x0600000000
  | .rdtbl => 0x0700000000

/-- The `mask` value of an operation's row (R68, spec/opcode_table.json). -/
def Mnemonic.rowMask : Mnemonic → CmdWord
  | .selm => 0xFFFFFFFFFF
  | .sell => 0xFFFFFFFFFF
  | .selg => 0xFF00000000
  | .setacc => 0xFF00000000
  | .byte => 0xFFFFFFFF00
  | .getcrc => 0xFF00000000
  | .rdtbl => 0xFFFFFFFF00

/-- The word whose bits are the low `nbits` bits of `w`, all further bits zero. The unit of the port is one 40-bit word,
so the table's numbering is the word's own (R66). DESIGN CHOICE, safe (notes/assumptions/11.md). -/
def tableWord (nbits w : Nat) : CmdWord :=
  BitVec.ofNat 40 (w % 2 ^ nbits)

/-- The decoder on a word given as spec/opcode_table.json numbers its bits. A number that needs more than 40 bits is no
command word and is refused (notes/assumptions/11.md). -/
def decodeTableWord (nbits w : Nat) : Option Instr :=
  if w % 2 ^ nbits < 2 ^ 40 then
    match decode (tableWord nbits w) with
    | .command i => some i
    | .illegal _ => none
  else none

end Sys2Proof
end

