-- ==== Sys2Proof/Machine/Generator.lean ====
section
/-! DEFINITION. The Table Generator: pure functions of the polynomial (spec/40_table_generator.md R80 to R84). -/

namespace Sys2Proof.Machine

/-- A BitConvention: most-significant-bit first or least-significant-bit first (R13, R80). -/
inductive Convention where
  | normal
  | reflected
deriving DecidableEq, Repr

/-- `classify(p)`: `Reflected` when bit 31 is set, `Normal` otherwise (R80). -/
def classify (p : Word) : Convention :=
  if p.getLsbD 31 then .reflected else .normal

/-- A CrcTable: 256 entries, one for each byte value (R81). -/
abbrev CrcTable := Byte → Word

/-- One iteration of the reflected form: the test reads bit 0 before the shift (R82). It is `rstep_p` of R84. -/
def rstep (p x : Word) : Word :=
  if x.getLsbD 0 then (x >>> 1) ^^^ p else x >>> 1

/-- `n` iterations of `rstep`. -/
def rsteps (p : Word) : Nat → Word → Word
  | 0, x => x
  | n + 1, x => rsteps p n (rstep p x)

/-- `gen_reflected(p)` (R82). -/
def genReflected (p : Word) : CrcTable :=
  fun i => rsteps p Config.niter (zext32 i)

/-- `n` iterations of the normal form on its two variables `crc` and `c`: the test reads bit 31 of `crc XOR c` before
either shift, and `c` is shifted on both branches (R83). -/
def normalLoop (p : Word) : Nat → Word → Word → Word
  | 0, crc, _ => crc
  | n + 1, crc, c =>
    if (crc ^^^ c).getLsbD 31 then normalLoop p n ((crc <<< 1) ^^^ p) (c <<< 1)
    else normalLoop p n (crc <<< 1) (c <<< 1)

/-- `gen_normal(p)` (R83). -/
def genNormal (p : Word) : CrcTable :=
  fun i => normalLoop p Config.niter 0 (zext32 i <<< 24)

/-- `gen_table(p, v)`, defined for every polynomial and convention (R81). -/
def genTable (p : Word) : Convention → CrcTable
  | .reflected => genReflected p
  | .normal => genNormal p

/-- The table of a polynomial under the convention its own top bit selects: the only way the block calls the generator
(R81, R100). -/
def tableOf (p : Word) : CrcTable :=
  genTable p (classify p)

/-- `nstep_p` of R84: the one-variable step of the normal form. A law's vocabulary; no command runs it. -/
def nstep (p x : Word) : Word :=
  if x.getLsbD 31 then (x <<< 1) ^^^ p else x <<< 1

/-- `n` iterations of `nstep`. -/
def nsteps (p : Word) : Nat → Word → Word
  | 0, x => x
  | n + 1, x => nsteps p n (nstep p x)

end Sys2Proof.Machine
end

