-- ==== Sys2Proof/Machine/State.lean ====
section
/-! DEFINITION. The state of the block (spec/10_state.md R20), its reset value (R34, spec/70_reset_and_hazards.md R171),
and the reasons a step can stop. -/

namespace Sys2Proof.Machine

/-- The three table cache slots (spec/10_state.md R21). -/
inductive Slot where
  /-- The named slot of `POLY_M`. -/
  | m
  /-- The named slot of `POLY_L`. -/
  | l
  /-- The generic slot. -/
  | g
deriving DecidableEq, Repr

/-- One table store: the entries that hold a value, as pairs of index and 32-bit word, indexes strictly rising. An index
not listed holds no value (R34, and spec/93_implementation_defined.md U1; notes/assumptions/2.md, notes/assumptions/3.md). -/
abbrev TableStore := List (Nat × Word)

/-- The block's only memory: three disjoint stores, one per slot (spec/20_memory.md R40). -/
structure Memory where
  tblM : TableStore
  tblL : TableStore
  tblG : TableStore
deriving DecidableEq, Repr

/-- What the host does at the ports, in the order it does it (spec/30_encoding.md R61 to R65,
spec/70_reset_and_hazards.md R179). -/
inductive HostEvent where
  /-- A command word is presented and accepted (R62). -/
  | command (w : CmdWord)
  /-- The host accepts a response word: `rsp_ready = 1` (R65). -/
  | takeResponse
  /-- `rst = 1` at a rising clock edge (R170). -/
  | rst
deriving DecidableEq, Repr

/-- The state. The fields `mem` to `cause` are the architectural state of R20, and nothing else is. The last three are
the model's own: the two ends of the ports, at the level of words that R62 prescribes (notes/assumptions/4.md,
notes/assumptions/5.md). -/
structure State where
  /-- `TBL[M]`, `TBL[L]`, `TBL[G]` (R21). -/
  mem : Memory
  /-- `BUILT[M]` (R23). -/
  builtM : Bool
  /-- `BUILT[L]` (R23). -/
  builtL : Bool
  /-- `BUILT[G]` (R23). -/
  builtG : Bool
  /-- `GPOLY` (R24). -/
  gpoly : Word
  /-- `ACTIVE`; `none` is `NONE` (R25; the codes are in `activeCode`). -/
  active : Option Slot
  /-- `ACC` (R22). -/
  acc : Word
  /-- `FAULT` (R26). -/
  fault : Bool
  /-- `CAUSE` (R26). -/
  cause : BitVec 2
  /-- What the host will do next, first event first. -/
  inbox : List HostEvent
  /-- Responses formed and not yet delivered, oldest first (R65). -/
  pending : List Word
  /-- Responses the host has received, oldest first (R180). -/
  delivered : List Word
deriving DecidableEq, Repr

/-- Why a step can stop with a fault of the model. The block's own faults (`IllegalCommand`, `NoTable`) are no
constructors here: the spec describes their effect, so they are next states (`raiseFault`). -/
inductive Fault where
  /-- Raised by `BYTE` and `RDTBL` when the active store holds no value at the index read. Safe: R32 (d) rules it out in
  every state a run reaches, and spec/93_implementation_defined.md U1 allows a read of an unbuilt store to be a model
  error (notes/assumptions/2.md). -/
  | unwrittenEntry (sl : Slot) (i : Byte)
deriving DecidableEq, Repr

/-- Why a step can be refused. -/
inductive Refusal where
  /-- Raised by an arm of `exec` that has no meaning yet. Safe; no arm of this model raises it. -/
  | notModelled (mnemonic : String)
deriving DecidableEq, Repr

/-- The state right after reset (R34, R171). `GPOLY` is the free value `Config.gpolyAtReset` and no table entry holds a
value, since R34 leaves both unspecified. The host has done nothing yet and no response is pending. -/
def State.reset : State where
  mem := ⟨[], [], []⟩
  builtM := false
  builtL := false
  builtG := false
  gpoly := Config.gpolyAtReset
  active := none
  acc := Config.initDefault
  fault := false
  cause := 0
  inbox := []
  pending := []
  delivered := []

end Sys2Proof.Machine
end

