-- ==== Sys2Proof/Machine/Ops.lean ====
section
/-! DEFINITION. The named operations over the state: reading and writing a table store (spec/20_memory.md R41, R42), the
response channel (spec/30_encoding.md R65), taking a fault (spec/60_exceptions.md R153) and reset, the only return from
one (R157, spec/70_reset_and_hazards.md R170). -/

namespace Sys2Proof.Machine

/-- The entry a store holds at an index, where it holds one. -/
def TableStore.read : TableStore → Nat → Option Word
  | [], _ => none
  | (k, v) :: rest, i => if k = i then some v else TableStore.read rest i

/-- The store with one entry written, indexes kept strictly rising. -/
def TableStore.write : TableStore → Nat → Word → TableStore
  | [], i, v => [(i, v)]
  | (k, w) :: rest, i, v =>
    if i < k then (i, v) :: (k, w) :: rest
    else if i = k then (i, v) :: rest
    else (k, w) :: TableStore.write rest i v

/-- Every index is at least `lo`, below 256, and above the one before it. -/
def TableStore.risesFrom : Nat → TableStore → Bool
  | _, [] => true
  | lo, (k, _) :: rest => lo ≤ k && k < Config.nent && TableStore.risesFrom (k + 1) rest

/-- The canonical form of one store. -/
def TableStore.wf (t : TableStore) : Bool :=
  TableStore.risesFrom 0 t

/-- The store of a slot: disjoint, without aliases (spec/10_state.md R21). -/
def Memory.store (m : Memory) : Slot → TableStore
  | .m => m.tblM
  | .l => m.tblL
  | .g => m.tblG

/-- The memory with the store of one slot replaced. -/
def Memory.setStore (m : Memory) (sl : Slot) (t : TableStore) : Memory :=
  match sl with
  | .m => { m with tblM := t }
  | .l => { m with tblL := t }
  | .g => { m with tblG := t }

/-- `TBL[s][i]`: a whole word at an 8-bit index, without side effect (R41, R45, R46). -/
def Memory.read (m : Memory) (sl : Slot) (i : Byte) : Option Word :=
  TableStore.read (m.store sl) i.toNat

/-- `TBL[s][i] <- v` (R42). -/
def Memory.write (m : Memory) (sl : Slot) (i : Byte) (v : Word) : Memory :=
  m.setStore sl (TableStore.write (m.store sl) i.toNat v)

/-- The canonical form of the memory: two equal memories are equal data. -/
def Memory.wf (m : Memory) : Bool :=
  TableStore.wf m.tblM && TableStore.wf m.tblL && TableStore.wf m.tblG

/-- `TblRead(s, i)` (R41). -/
def tblRead (sl : Slot) (i : Byte) (s : State) : Option Word :=
  s.mem.read sl i

/-- The 256 indexes in ascending order (R11). -/
def allIndexes : List Byte :=
  (List.range Config.nent).map (BitVec.ofNat 8)

/-- `TblWrite(s, i, T[i])` for every index of the list, in its order (R42, R100). -/
def Memory.writeEntries (m : Memory) (sl : Slot) (tbl : CrcTable) (is : List Byte) : Memory :=
  is.foldl (fun m i => m.write sl i (tbl i)) m

/-- `Respond(v)`: `v` becomes the next word of the response stream (spec/30_encoding.md R65). -/
def respond (v : Word) (s : State) : State :=
  { s with pending := s.pending ++ [v] }

/-- The two faults of the command port (spec/60_exceptions.md R156). -/
inductive Cause where
  | illegalCommand
  | noTable
deriving DecidableEq, Repr

/-- The code a fault records in `CAUSE` (R26, R156). -/
def Cause.code : Cause → BitVec 2
  | .illegalCommand => 1
  | .noTable => 2

/-- Taking a fault: `FAULT <- 1`, `CAUSE <- k`, and nothing else changes (R153). A fault already recorded stays as it is
(R26, R154). -/
def raiseFault (k : Cause) (s : State) : State :=
  if s.fault then s else { s with fault := true, cause := k.code }

/-- Reset by the pin: the architectural state becomes the reset state and responses not yet delivered are dropped (R170,
spec/30_encoding.md R64). What the host received and what it does next are not the block's and stay
(notes/assumptions/7.md). It is also the only return from a fault (R157). -/
def applyReset (s : State) : State :=
  { State.reset with inbox := s.inbox, delivered := s.delivered }

/-- The host accepts a response: the oldest one is delivered (R65). With none pending `rsp_valid = 0` and nothing is
delivered (notes/assumptions/5.md). -/
def deliver (s : State) : State :=
  match s.pending with
  | [] => s
  | v :: rest => { s with pending := rest, delivered := s.delivered ++ [v] }

end Sys2Proof.Machine
end

