-- ==== Sys2Proof/Machine/Flags.lean ====
section
/-! DEFINITION. The flags and control fields of the block (spec/10_state.md R23, R25, R26): it has no condition codes, no
carry and no zero flag (R28). -/

namespace Sys2Proof.Machine

/-- `BUILT[s]` (R23). -/
def State.built (s : State) : Slot → Bool
  | .m => s.builtM
  | .l => s.builtL
  | .g => s.builtG

/-- `BUILT[s] <- 1`: only reset clears a flag (R23). -/
def State.setBuilt (s : State) (sl : Slot) : State :=
  match sl with
  | .m => { s with builtM := true }
  | .l => { s with builtL := true }
  | .g => { s with builtG := true }

/-- `ACTIVE <- s` (R25). -/
def State.activate (s : State) (sl : Slot) : State :=
  { s with active := some sl }

/-- `GPOLY <- p` (R24). -/
def State.setTag (s : State) (p : Word) : State :=
  { s with gpoly := p }

/-- The 2-bit code of `ACTIVE`: `NONE`, `M`, `L`, `G` are 0, 1, 2, 3 (R25). -/
def activeCode : Option Slot → BitVec 2
  | none => 0
  | some .m => 1
  | some .l => 2
  | some .g => 3

/-- The content of `ACTIVE` that a 2-bit code stands for (R25): every code stands for one. -/
def activeOfCode (c : BitVec 2) : Option Slot :=
  if c = 0 then none else if c = 1 then some .m else if c = 2 then some .l else some .g

end Sys2Proof.Machine
end

