-- ==== Sys2Proof/Machine/Operands.lean ====
section
/-! DEFINITION. What a command's operands are combined with: the polynomial and convention of a slot (spec/10_state.md R27)
and the index of the table entry that is read (spec/42_crc_engine.md R110, R121). -/

namespace Sys2Proof.Machine

/-- `poly(s)`: fixed for the named slots, `GPOLY` for the generic one (R27). -/
def polyOf (sl : Slot) (s : State) : Word :=
  match sl with
  | .m => Config.polyM
  | .l => Config.polyL
  | .g => s.gpoly

/-- `conv(s) = classify(poly(s))`: derived, never stored and never supplied by the host (R27). -/
def convOf (sl : Slot) (s : State) : Convention :=
  classify (polyOf sl s)

/-- The index of `update`: the accumulator's low byte XOR `b` under `Reflected`, its high byte XOR `b` under `Normal`
(R110, R121). -/
def updateIndex : Convention → Word → Byte → Byte
  | .reflected, a, b => argByte ((a ^^^ zext32 b) &&& 0xFF)
  | .normal, a, b => argByte (((a >>> 24) ^^^ zext32 b) &&& 0xFF)

/-- The result of `update` from the accumulator and the entry read (R110). -/
def updateCombine : Convention → Word → Word → Word
  | .reflected, a, e => (a >>> 8) ^^^ e
  | .normal, a, e => (a <<< 8) ^^^ e

end Sys2Proof.Machine
end

