-- ==== Sys2Proof/Machine/Cache.lean ====
section
/-! DEFINITION. The Table Cache: the procedure `build` and the three select commands (spec/41_table_cache.md R100 to
R103). -/

namespace Sys2Proof.Machine

/-- `build(s, p)`: all 256 entries of the slot are written and its flag is set (R100). -/
def build (sl : Slot) (p : Word) (s : State) : State :=
  { s with mem := s.mem.writeEntries sl (tableOf p) allIndexes }.setBuilt sl

/-- `get_or_build` on a named slot, then make it the active table: the shape of R101 and R102. -/
def selectNamed (sl : Slot) (p : Word) (s : State) : State :=
  (if s.built sl then s else build sl p s).activate sl

/-- Whether `SELG p` misses: the flag is read first, so no content of `GPOLY` stands for "empty" (R103, R106). -/
def genericMiss (p : Word) (s : State) : Bool :=
  !s.builtG || s.gpoly != p

/-- `get_or_build` on the generic slot, then make it the active table: a miss builds the slot and sets its tag (R103). -/
def selectGeneric (p : Word) (s : State) : State :=
  (if genericMiss p s then (build .g p s).setTag p else s).activate .g

/-- `SELM` (R101). -/
def execSelm (s : State) : Host.Outcome State Fault Refusal :=
  .next (selectNamed .m Config.polyM s)

/-- `SELL` (R102). -/
def execSell (s : State) : Host.Outcome State Fault Refusal :=
  .next (selectNamed .l Config.polyL s)

/-- `SELG p` (R103): the generic slot, whatever polynomial is asked for, a named one too (R105). -/
def execSelg (p : Word) (s : State) : Host.Outcome State Fault Refusal :=
  .next (selectGeneric p s)

end Sys2Proof.Machine
end

