-- ==== Sys2Proof/Machine/Engine.lean ====
section
/-! DEFINITION. The CRC Engine: `update`, `fold` and the four commands of the engine (spec/42_crc_engine.md R110 to
R115). -/

namespace Sys2Proof.Machine

/-- `update(T, v, a, b)` (R110). -/
def update (tbl : CrcTable) (v : Convention) (a : Word) (b : Byte) : Word :=
  updateCombine v a (tbl (updateIndex v a b))

/-- `fold(T, v, init, d)`: `update` once per byte, in sequence order; the empty string returns `init` (R115). -/
def fold (tbl : CrcTable) (v : Convention) : Word → List Byte → Word
  | a, [] => a
  | a, b :: d => fold tbl v (update tbl v a b) d

/-- `SETACC v` (R111). -/
def execSetacc (v : Word) (s : State) : Host.Outcome State Fault Refusal :=
  .next { s with acc := v }

/-- `BYTE b` (R112): `NoTable` when no table is selected, else one `update` on the active table, which reads one
entry. -/
def execByte (b : Byte) (s : State) : Host.Outcome State Fault Refusal :=
  match s.active with
  | none => .next (raiseFault .noTable s)
  | some sl =>
    match tblRead sl (updateIndex (convOf sl s) s.acc b) s with
    | none => .fault (.unwrittenEntry sl (updateIndex (convOf sl s) s.acc b))
    | some e => .next { s with acc := updateCombine (convOf sl s) s.acc e }

/-- `GETCRC x` (R113). -/
def execGetcrc (x : Word) (s : State) : Host.Outcome State Fault Refusal :=
  .next (respond (s.acc ^^^ x) s)

/-- `RDTBL i` (R114): `NoTable` when no table is selected, else respond one entry of the active table. -/
def execRdtbl (i : Byte) (s : State) : Host.Outcome State Fault Refusal :=
  match s.active with
  | none => .next (raiseFault .noTable s)
  | some sl =>
    match tblRead sl i s with
    | none => .fault (.unwrittenEntry sl i)
    | some e => .next (respond e s)

end Sys2Proof.Machine
end

