-- ==== Sys2Proof/Machine/Dispatch.lean ====
section
/-! DEFINITION. What each command does: one arm per constructor of `Instr` (spec/30_encoding.md R68). -/

namespace Sys2Proof.Machine

def exec (i : Instr) (s : State) : Host.Outcome State Fault Refusal :=
  match i with
  | .selm => Sys2Proof.Machine.execSelm s
  | .sell => Sys2Proof.Machine.execSell s
  | .selg p => Sys2Proof.Machine.execSelg p s
  | .setacc v => Sys2Proof.Machine.execSetacc v s
  | .byte b => Sys2Proof.Machine.execByte b s
  | .getcrc x => Sys2Proof.Machine.execGetcrc x s
  | .rdtbl k => Sys2Proof.Machine.execRdtbl k s

end Sys2Proof.Machine
end

