-- ==== Sys2Proof/Machine/Accept.lean ====
section
/-! DEFINITION. Accepting a command word (spec/30_encoding.md R63, spec/60_exceptions.md R151 to R155) and the other
things the host does at the ports (spec/70_reset_and_hazards.md R179). -/

namespace Sys2Proof.Machine

/-- The effect of one accepted word: `step(c, S)` of R63. While `FAULT = 1` the word is discarded before it is decoded
(R154); an illegal word raises `IllegalCommand` before any other check (R151, R155); any other runs its command. -/
def acceptWord (w : CmdWord) (s : State) : Host.Outcome State Fault Refusal :=
  if s.fault then .next s
  else
    match decode w with
    | .illegal _ => .next (raiseFault .illegalCommand s)
    | .command i => exec i s

/-- The effect of one thing the host does (R179). -/
def hostEvent (e : HostEvent) (s : State) : Host.Outcome State Fault Refusal :=
  match e with
  | .command w => acceptWord w s
  | .takeResponse => .next (deliver s)
  | .rst => .next (applyReset s)

/-- Between commands the block waits with its state intact and never acts on its own (R162, R179). -/
def idle (s : State) : Host.Outcome State Fault Refusal :=
  .next s

/-- The state after a command sequence: the words in order, each completely before the next (R63, R47). -/
def runWords : List CmdWord → State → Host.Outcome State Fault Refusal
  | [], s => .next s
  | w :: ws, s =>
    match acceptWord w s with
    | .next t => runWords ws t
    | .fault r => .fault r
    | .refused r => .refused r

/-- The state with a command word placed as the very next thing the host does. -/
def presentWord (w : CmdWord) (s : State) : State :=
  { s with inbox := .command w :: s.inbox }

end Sys2Proof.Machine
end

