-- ==== Sys2Proof/Machine/Step.lean ====
section
/-! DEFINITION. One step of the machine: the next thing the host does at the ports, and its whole effect
(spec/30_encoding.md R63, spec/20_memory.md R47). The block has no program counter and fetches nothing
(spec/10_state.md R29). -/

namespace Sys2Proof.Machine

/-- One step: the first event of the inbox is taken off it and carried out; with none left the block waits. -/
def step (s : State) : Host.Outcome State Fault Refusal :=
  match s.inbox with
  | [] => idle s
  | e :: rest => hostEvent e { s with inbox := rest }

/-- The state in which the host presents the given word next, bits numbered as spec/opcode_table.json numbers them. It
stands for the host's side of the command channel (notes/assumptions/4.md). -/
def State.withFetchWord (s : State) (nbits w : Nat) : State :=
  presentWord (tableWord nbits w) s

end Sys2Proof.Machine
end

