-- ==== Sys2Proof/Machine/Facade.lean ====
section
/-! DEFINITION. The pseudo-instructions: fixed command sequences a host issues (spec/30_encoding.md R74,
spec/43_variant_facade.md R131 to R135). They are no constructors of `Instr`: the block only ever sees their commands. -/

namespace Sys2Proof.Machine

/-- A pseudo-instruction; an operand that may be left out is an `Option` (R74). -/
inductive Pseudo where
  | fold (d : List Byte)
  | mpeg2 (d : List Byte) (init : Option Word)
  | fsc (d : List Byte) (init : Option Word)
  | crc32 (d : List Byte) (init : Option Word)
  | table32 (p : Word)
  | hacker32 (d : List Byte) (poly init xorout : Option Word)
deriving DecidableEq, Repr

/-- `FOLD d`: one `BYTE` per byte, in sequence order (spec/42_crc_engine.md R116). -/
def foldCommands (d : List Byte) : List Instr :=
  d.map .byte

/-- The common shape of a checksum sequence (R130). -/
def checksumCommands (sel : Instr) (init : Word) (d : List Byte) (xorout : Word) : List Instr :=
  sel :: .setacc init :: (foldCommands d ++ [.getcrc xorout])

/-- The select `TABLE32` uses: the host compares the polynomial with the two named constants (R134). -/
def table32Select (p : Word) : Instr :=
  if p = Config.polyM then .selm else if p = Config.polyL then .sell else .selg p

/-- The 256 table reads of `TABLE32`, index 0 first (R134). -/
def table32Reads : List Instr :=
  (List.range Config.nent).map fun i => .rdtbl (BitVec.ofNat 8 i)

/-- The command sequence a pseudo-instruction stands for (R74). -/
def Pseudo.expand : Pseudo → List Instr
  | .fold d => foldCommands d
  | .mpeg2 d init => checksumCommands .selm (init.getD Config.initDefault) d Config.xoroutMpeg2
  | .fsc d init => checksumCommands .selm (init.getD Config.initDefault) d Config.xoroutMpeg2
  | .crc32 d init => checksumCommands .sell (init.getD Config.initDefault) d Config.xoroutCrc32
  | .table32 p => table32Select p :: table32Reads
  | .hacker32 d poly init xorout =>
    checksumCommands (.selg (poly.getD Config.polyHackerDefault)) (init.getD Config.initDefault) d
      (xorout.getD Config.xoroutHackerDefault)

/-- The command words of a pseudo-instruction. -/
def Pseudo.words (q : Pseudo) : List CmdWord :=
  q.expand.map encode

end Sys2Proof.Machine
end

