-- ==== Sys2Proof/Machine/Assembler.lean ====
section
/-! DEFINITION. The assembler syntax of one line (spec/30_encoding.md R73): upper-case mnemonic, at most one operand, a
hexadecimal literal of 1 to 8 digits that must fit the operation's form, and a comment from `;` to the end of the line.
Blanks, digit case and lines without a command: DESIGN CHOICE (notes/assumptions/10.md). The pseudo-instructions are
written as the spec's examples write them (R74, spec/43_variant_facade.md R138, spec/95_test_vectors.md P7;
notes/assumptions/15.md). -/

namespace Sys2Proof.Machine

/-- Why a line is rejected. -/
inductive AsmError where
  /-- The first field is none of the seven mnemonics. -/
  | unknownMnemonic
  /-- The operand is no literal `0x` with 1 to 8 hexadecimal digits. -/
  | badLiteral
  /-- The operand does not fit the operation's form, or is missing, or is one too many for it. -/
  | operandDoesNotFit
  /-- More than a mnemonic and one operand. -/
  | tooManyFields
  /-- The operands of a pseudo-instruction are not those it takes. -/
  | badPseudoOperand
deriving DecidableEq, Repr

/-- What the assembler makes of one line. -/
inductive AsmLine where
  /-- No command on the line. -/
  | blank
  | command (i : Instr)
  /-- A pseudo-instruction, to be expanded (R74). -/
  | sequence (q : Pseudo)
  | rejected (e : AsmError)
deriving DecidableEq, Repr

/-- A comment starts at `;` and runs to the end of the line. -/
def stripComment : List Char → List Char
  | [] => []
  | c :: rest => if c = ';' then [] else c :: stripComment rest

/-- A blank separates fields. -/
def isBlank (c : Char) : Bool :=
  c == ' ' || c == '\t'

/-- The fields of a line; `cur` is the field being read, last character first. -/
def splitFields : List Char → List Char → List (List Char)
  | cur, [] => if cur.isEmpty then [] else [cur.reverse]
  | cur, c :: rest =>
    if isBlank c then
      if cur.isEmpty then splitFields [] rest else cur.reverse :: splitFields [] rest
    else splitFields (c :: cur) rest

/-- The spelling of a mnemonic, upper case. -/
def mnemonicSpelling : Mnemonic → List Char
  | .selm => ['S', 'E', 'L', 'M']
  | .sell => ['S', 'E', 'L', 'L']
  | .selg => ['S', 'E', 'L', 'G']
  | .setacc => ['S', 'E', 'T', 'A', 'C', 'C']
  | .byte => ['B', 'Y', 'T', 'E']
  | .getcrc => ['G', 'E', 'T', 'C', 'R', 'C']
  | .rdtbl => ['R', 'D', 'T', 'B', 'L']

/-- The seven mnemonics. -/
def allMnemonics : List Mnemonic :=
  [.selm, .sell, .selg, .setacc, .byte, .getcrc, .rdtbl]

/-- The mnemonic a field spells. -/
def mnemonicOf (f : List Char) : Option Mnemonic :=
  allMnemonics.find? fun m => mnemonicSpelling m == f

/-- The value of a hexadecimal digit. -/
def hexDigitValue (c : Char) : Option Nat :=
  if 48 ≤ c.toNat ∧ c.toNat ≤ 57 then some (c.toNat - 48)
  else if 65 ≤ c.toNat ∧ c.toNat ≤ 70 then some (c.toNat - 55)
  else if 97 ≤ c.toNat ∧ c.toNat ≤ 102 then some (c.toNat - 87)
  else none

/-- The value of a digit string, most significant digit first, after the digits already read gave `acc`. -/
def hexValue : Nat → List Char → Option Nat
  | acc, [] => some acc
  | acc, c :: rest =>
    match hexDigitValue c with
    | none => none
    | some d => hexValue (acc * 16 + d) rest

/-- A literal: `0x` and 1 to 8 digits. -/
def literalValue (f : List Char) : Option Nat :=
  match f with
  | '0' :: 'x' :: ds => if 1 ≤ ds.length ∧ ds.length ≤ 8 then hexValue 0 ds else none
  | _ => none

/-- The command of a checked source command. -/
def sourceCommand (c : Source) : Option Instr :=
  if c.wf then
    match c.mnemonic, c.operand with
    | .selm, _ => some .selm
    | .sell, _ => some .sell
    | .selg, some n => some (.selg (BitVec.ofNat 32 n))
    | .setacc, some n => some (.setacc (BitVec.ofNat 32 n))
    | .byte, some n => some (.byte (BitVec.ofNat 8 n))
    | .getcrc, some n => some (.getcrc (BitVec.ofNat 32 n))
    | .rdtbl, some n => some (.rdtbl (BitVec.ofNat 8 n))
    | _, none => none
  else none

/-- A source command, or its rejection: a literal that does not fit is never truncated (R73). -/
def finishLine (c : Source) : AsmLine :=
  match sourceCommand c with
  | some i => .command i
  | none => .rejected .operandDoesNotFit

/-- A core command from its mnemonic and the fields after it. -/
def assembleCommand (m : Mnemonic) (os : List (List Char)) : AsmLine :=
  match os with
  | [] => finishLine ⟨m, none⟩
  | [o] =>
    match literalValue o with
    | none => .rejected .badLiteral
    | some n => finishLine ⟨m, some n⟩
  | _ :: _ :: _ => .rejected .tooManyFields

/-- The names of the pseudo-instructions (R74). -/
inductive PseudoName where
  | fold | mpeg2 | fsc | crc32 | table32 | hacker32
deriving DecidableEq, Repr

/-- The spelling of a pseudo-instruction's name. -/
def pseudoSpelling : PseudoName → List Char
  | .fold => ['F', 'O', 'L', 'D']
  | .mpeg2 => ['M', 'P', 'E', 'G', '2']
  | .fsc => ['F', 'S', 'C']
  | .crc32 => ['C', 'R', 'C', '3', '2']
  | .table32 => ['T', 'A', 'B', 'L', 'E', '3', '2']
  | .hacker32 => ['H', 'A', 'C', 'K', 'E', 'R', '3', '2']

/-- The pseudo-instruction a field names. -/
def pseudoNameOf (f : List Char) : Option PseudoName :=
  [PseudoName.fold, .mpeg2, .fsc, .crc32, .table32, .hacker32].find? fun q => pseudoSpelling q == f

/-- The text without the blanks it starts with. -/
def dropBlanks (t : List Char) : List Char :=
  t.dropWhile isBlank

/-- The text after its first field. -/
def afterField (t : List Char) : List Char :=
  dropBlanks ((dropBlanks t).dropWhile fun c => !isBlank c)

/-- The bytes up to the closing quote, each the code of its character, and the text after it. -/
def quotedBytes : List Char → Option (List Byte × List Char)
  | [] => none
  | c :: rest =>
    if c = '"' then some ([], rest)
    else if c.toNat < 256 then
      match quotedBytes rest with
      | none => none
      | some (d, t) => some (BitVec.ofNat 8 c.toNat :: d, t)
    else none

/-- A byte string between double quotes at the start of the text, and the text after it. -/
def byteString (t : List Char) : Option (List Byte × List Char) :=
  match t with
  | '"' :: rest => quotedBytes rest
  | _ => none

/-- The operands after the byte string: none, or a comma before each. An operand is one field. -/
def moreOperands : List Char → List Char → List (List Char)
  | cur, [] => [cur.reverse]
  | cur, c :: rest => if c = ',' then cur.reverse :: moreOperands [] rest else moreOperands (c :: cur) rest

/-- The one field of an operand. -/
def oneField (t : List Char) : Option (List Char) :=
  match splitFields [] t with
  | [f] => some f
  | _ => none

/-- The operands after the byte string as fields. -/
def operandFields (t : List Char) : Option (List (List Char)) :=
  match dropBlanks t with
  | [] => some []
  | ',' :: rest => (moreOperands [] rest).mapM oneField
  | _ => none

/-- A 32-bit literal. -/
def wordLiteral (f : List Char) : Option Word :=
  (literalValue f).map (BitVec.ofNat 32)

/-- The optional `init` of a preset, by position (R74). -/
def initOperand (fs : List (List Char)) : Option (Option Word) :=
  match fs with
  | [] => some none
  | [f] => (wordLiteral f).map some
  | _ => none

/-- The keyword operands of `HACKER32` (R74). -/
structure HackerOperands where
  poly : Option Word
  init : Option Word
  xorout : Option Word
deriving DecidableEq, Repr

/-- One keyword operand added; a keyword may stand once. -/
def addKeyword (h : HackerOperands) (f : List Char) : Option HackerOperands :=
  match f with
  | 'p' :: 'o' :: 'l' :: 'y' :: '=' :: v =>
    if h.poly.isSome then none else (wordLiteral v).map fun w => { h with poly := some w }
  | 'i' :: 'n' :: 'i' :: 't' :: '=' :: v =>
    if h.init.isSome then none else (wordLiteral v).map fun w => { h with init := some w }
  | 'x' :: 'o' :: 'r' :: 'o' :: 'u' :: 't' :: '=' :: v =>
    if h.xorout.isSome then none else (wordLiteral v).map fun w => { h with xorout := some w }
  | _ => none

/-- A pseudo-instruction from its name and the text after it. -/
def parsePseudo (q : PseudoName) (t : List Char) : Option Pseudo :=
  match q with
  | .table32 =>
    match oneField t with
    | none => none
    | some f => (wordLiteral f).map .table32
  | .fold | .mpeg2 | .fsc | .crc32 | .hacker32 =>
    match byteString t with
    | none => none
    | some (d, rest) =>
      match operandFields rest with
      | none => none
      | some fs =>
        match q with
        | .table32 => none
        | .fold => if fs.isEmpty then some (.fold d) else none
        | .mpeg2 => (initOperand fs).map (.mpeg2 d)
        | .fsc => (initOperand fs).map (.fsc d)
        | .crc32 => (initOperand fs).map (.crc32 d)
        | .hacker32 => (fs.foldlM addKeyword ⟨none, none, none⟩).map fun h => .hacker32 d h.poly h.init h.xorout

/-- One line of assembler source (R73, R74). -/
def assembleLine (line : List Char) : AsmLine :=
  match splitFields [] (stripComment line) with
  | [] => .blank
  | f :: os =>
    match mnemonicOf f with
    | some m => assembleCommand m os
    | none =>
      match pseudoNameOf f with
      | none => .rejected .unknownMnemonic
      | some q =>
        match parsePseudo q (afterField (stripComment line)) with
        | none => .rejected .badPseudoOperand
        | some p => .sequence p

/-- A source text, line after line: its commands with the pseudo-instructions expanded, or the first rejection (R74). -/
def assembleProgram : List (List Char) → Except AsmError (List Instr)
  | [] => .ok []
  | line :: rest =>
    match assembleLine line, assembleProgram rest with
    | .rejected e, _ => .error e
    | _, .error e => .error e
    | .blank, .ok is => .ok is
    | .command i, .ok is => .ok (i :: is)
    | .sequence q, .ok is => .ok (q.expand ++ is)

/-- The upper-case digit of a value below 16. -/
def hexDigit (n : Nat) : Char :=
  if n < 10 then Char.ofNat (48 + n) else Char.ofNat (55 + n)

/-- The last `k` hexadecimal digits of a number, most significant first. -/
def hexDigits : Nat → Nat → List Char
  | 0, _ => []
  | k + 1, n => hexDigits k (n / 16) ++ [hexDigit (n % 16)]

/-- A command as the assembler writes it: eight digits for `U32`, two for `U8`. -/
def printCommand (i : Instr) : List Char :=
  match i.source.operand, i.form with
  | none, _ => mnemonicSpelling i.mnemonic
  | some n, .u8 => mnemonicSpelling i.mnemonic ++ [' ', '0', 'x'] ++ hexDigits 2 n
  | some n, _ => mnemonicSpelling i.mnemonic ++ [' ', '0', 'x'] ++ hexDigits 8 n

/-- A line of a listing: the encoding first, `op` then `arg`, then the command (R66, R73). -/
def printListing (i : Instr) : List Char :=
  hexDigits 2 i.mnemonic.opcode.toNat ++ [' '] ++ hexDigits 8 i.arg.toNat ++ [' ', ' '] ++ printCommand i

end Sys2Proof.Machine
end

