-- ==== Sys2Proof/Machine/Timing.lean ====
section
/-! DEFINITION. The two latency parameters (spec/00_scope.md R8, spec/70_reset_and_hazards.md R182) as a function of the
command and the state. Nothing of the machine reads it: no rule depends on time. -/

namespace Sys2Proof.Machine

/-- Whether a command is a select that must build its table (spec/41_table_cache.md R101 to R103). -/
def isMiss (i : Instr) (s : State) : Bool :=
  match i with
  | .selm => !s.builtM
  | .sell => !s.builtL
  | .selg p => genericMiss p s
  | .setacc _ => false
  | .byte _ => false
  | .getcrc _ => false
  | .rdtbl _ => false

/-- `T_BUILD` for a select that misses, `T_CMD(op)` for everything else, a select that hits included (R182). -/
def latency (i : Instr) (s : State) : Nat :=
  if isMiss i s then Config.tBuild else Config.tCmd i.mnemonic.opcode

end Sys2Proof.Machine
end

