-- ==== Sys2Proof/Machine/Ports.lean ====
section
/-! DEFINITION. The output ports as functions of the state, between commands (spec/30_encoding.md R61, R64, R65,
spec/10_state.md R26). No other port exists; `BUILT`, `GPOLY`, `ACTIVE` and `ACC` have no read-out (R61). -/

namespace Sys2Proof.Machine

/-- The levels of the output ports. -/
structure Pins where
  /-- `cmd_ready`. -/
  cmdReady : Bool
  /-- `rsp_valid`. -/
  rspValid : Bool
  /-- `rsp_data`; no value while `rsp_valid = 0`. -/
  rspData : Option Word
  /-- `fault`. -/
  fault : Bool
  /-- `fault_code`. -/
  faultCode : BitVec 2
deriving DecidableEq, Repr

/-- The ports between two commands, with the level of the pin `rst`. While `rst = 1` no command is accepted and no response
delivered (R64); `fault` and `fault_code` show `FAULT` and `CAUSE` continuously (R26). That `cmd_ready = 1` whenever no
command is in progress is a DESIGN CHOICE (notes/assumptions/9.md). -/
def pins (rst : Bool) (s : State) : Pins where
  cmdReady := !rst
  rspValid := !rst && !s.pending.isEmpty
  rspData := if rst then none else s.pending.head?
  fault := s.fault
  faultCode := s.cause

end Sys2Proof.Machine
end

