-- ==== Sys2Proof/Safety.lean ====
section
/-! DEFINITION. What claims are stated in: the invariants of a reachable state (spec/10_state.md R32), the end and the
success of a run (spec/70_reset_and_hazards.md R180), and what the host can tell apart (spec/10_state.md R33). -/

namespace Sys2Proof.Machine

/-- The cache invariant, clauses (a) to (d) of R32. -/
structure CacheInvariant (s : State) : Prop where
  tableM : s.builtM = true → ∀ i, tblRead .m i s = some (genTable 0x04C11DB7 .normal i)
  tableL : s.builtL = true → ∀ i, tblRead .l i s = some (genTable 0xEDB88320 .reflected i)
  tableG : s.builtG = true → ∀ i, tblRead .g i s = some (genTable s.gpoly (classify s.gpoly) i)
  activeBuilt : ∀ sl, s.active = some sl → s.built sl = true

/-- `CAUSE` is 0 while no fault is recorded and one of the two codes while one is; 3 is never produced (R26, R156). -/
def CauseLegal (s : State) : Prop :=
  (s.fault = false → s.cause = 0) ∧ (s.fault = true → s.cause = 1 ∨ s.cause = 2)

/-- The invariant of a reachable state: the cache invariant, a legal cause, and the memory in its canonical form. -/
structure BlockInvariant (s : State) : Prop where
  cache : CacheInvariant s
  cause : CauseLegal s
  memory : s.mem.wf = true

/-- R154: a state with `FAULT = 1` has gone wrong. -/
def GoneWrong (s : State) : Prop :=
  s.fault = true

/-- R180: every word is executed and every response delivered. -/
def RunEnded (s : State) : Prop :=
  s.inbox = [] ∧ s.pending = []

/-- R180: a run is successful when it has ended with `FAULT = 0`. -/
def RunSucceeded (s : State) : Prop :=
  RunEnded s ∧ ¬ GoneWrong s

/-- The host cannot tell the two states apart by anything but time: all that a response, a pin or the further course can
depend on is equal; which slots are built, and the tag of a generic slot that is not active, may differ (R33). -/
structure SameToHost (s t : State) : Prop where
  active : s.active = t.active
  gpoly : s.active = some .g → s.gpoly = t.gpoly
  acc : s.acc = t.acc
  fault : s.fault = t.fault
  cause : s.cause = t.cause
  inbox : s.inbox = t.inbox
  pending : s.pending = t.pending
  delivered : s.delivered = t.delivered

/-- The two states agree wherever R34 gives an element a value: an unbuilt store may hold anything, and so may `GPOLY` while
`BUILT[G] = 0` (spec/93_implementation_defined.md U1, U2). -/
structure AgreeWhereSpecified (s t : State) : Prop where
  built : ∀ sl, s.built sl = t.built sl
  table : ∀ sl i, s.built sl = true → tblRead sl i s = tblRead sl i t
  gpoly : s.builtG = true → s.gpoly = t.gpoly
  active : s.active = t.active
  acc : s.acc = t.acc
  fault : s.fault = t.fault
  cause : s.cause = t.cause
  inbox : s.inbox = t.inbox
  pending : s.pending = t.pending
  delivered : s.delivered = t.delivered

/-- The select command that asks again for the table a slot holds. -/
def selectAgain (sl : Slot) (s : State) : Instr :=
  match sl with
  | .m => .selm
  | .l => .sell
  | .g => .selg s.gpoly

/-- Two runs that end the same way: both in states related by `r`, or both stopped for the same reason. -/
def SameOutcome (r : State → State → Prop) : Host.Outcome State Fault Refusal → Host.Outcome State Fault Refusal → Prop
  | .next s, .next t => r s t
  | .fault e, .fault f => e = f
  | .refused e, .refused f => e = f
  | _, _ => False

end Sys2Proof.Machine
end

