-- ==== Sys2Proof/Certificates/Slice0/Obligations.lean ====
section
/-! DEFINITION. The statements for the provers. Each docstring names the rule of spec/ it comes from. -/

open Sys2Proof Sys2Proof.Machine

/-! ## Encoding -/

/-- R75: the encoding examples, one per operation, and the four illegal words. -/
def Obligations.EncodingExamplesDecode : Prop :=
  decode 0x0100000000 = .command .selm ∧
  decode 0x0200000000 = .command .sell ∧
  decode 0x031EDC6F41 = .command (.selg 0x1EDC6F41) ∧
  decode 0x04FFFFFFFF = .command (.setacc 0xFFFFFFFF) ∧
  decode 0x0500000031 = .command (.byte 0x31) ∧
  decode 0x06FFFFFFFF = .command (.getcrc 0xFFFFFFFF) ∧
  decode 0x0700000080 = .command (.rdtbl 0x80) ∧
  decode 0x0000000000 = .illegal .opZero ∧
  decode 0x0100000001 = .illegal .operandNotZero ∧
  decode 0x0500000100 = .illegal .operandAboveByte ∧
  decode 0x0800000000 = .illegal .opAboveSeven

/-- R70: `decode(encode(c)) = c` for every command `c`, with every operand at every value. -/
def Obligations.DecodeOfEncodeIsTheCommand : Prop :=
  ∀ i : Instr, i.wf = true → decode (encode i) = .command i

/-- R70: `encode(decode(w)) = w` for every `w` that does not decode to `Illegal`; so no two words are the same command and
no bit of a word is dropped. -/
def Obligations.EncodeOfDecodeIsTheWord : Prop :=
  ∀ (w : CmdWord) (i : Instr), decode w = .command i → encode i = w

/-- R68: a word decodes to a command of an operation exactly when it agrees with the operation's `match` under its `mask`,
and no word matches two rows. -/
def Obligations.OpcodeRowsSelectTheirCommands : Prop :=
  (∀ (w : CmdWord) (m : Mnemonic),
    (∃ i, decode w = .command i ∧ i.mnemonic = m) ↔ w &&& m.rowMask = m.rowMatch) ∧
  (∀ (w : CmdWord) (m n : Mnemonic), w &&& m.rowMask = m.rowMatch → w &&& n.rowMask = n.rowMatch → m = n)

/-- R67: what is legal for each form, how `U8` reads its operand, and that a word of a given operation is its command with
exactly that operand when the operand is legal for the form, and reserved when it is not. -/
def Obligations.OperandFormsReadAsSpecified : Prop :=
  ∀ a : Word,
    (Form.legal .z a = true ↔ a = 0) ∧
    Form.legal .u32 a = true ∧
    (Form.legal .u8 a = true ↔ a.toNat < 256) ∧
    (argByte a).toNat = a.toNat % 256 ∧
    ∀ (w : CmdWord) (m : Mnemonic), opField w = m.opcode → argField w = a →
      (m.form.legal a = true → ∃ i, decode w = .command i ∧ i.mnemonic = m ∧ i.arg = a) ∧
      (m.form.legal a = false → ∃ r, decode w = .illegal r)

/-- R69: the reserved words are those that match no row, and they are exactly the four classes; executing one in a state without a fault raises `IllegalCommand`
and has no other effect; the all-zero and the all-ones word are among them. -/
def Obligations.ReservedWordsAreIllegalCommands : Prop :=
  (∀ w : CmdWord, (∃ r, decode w = .illegal r) ↔ ∀ m : Mnemonic, w &&& m.rowMask ≠ m.rowMatch) ∧
  (∀ w : CmdWord,
    (∃ r, decode w = .illegal r) ↔
      (opField w = 0 ∨ 8 ≤ (opField w).toNat ∨
        ((opField w = 1 ∨ opField w = 2) ∧ argField w ≠ 0) ∨
        ((opField w = 5 ∨ opField w = 7) ∧ (argField w).extractLsb' 8 24 ≠ 0))) ∧
  (∀ (w : CmdWord) (s : State) (r : Reserved), decode w = .illegal r → s.fault = false →
    acceptWord w s = .next { s with fault := true, cause := 1 }) ∧
  (∃ r, decode 0x0000000000 = .illegal r) ∧ (∃ r, decode 0xFFFFFFFFFF = .illegal r)

/-! ## Reset, invariants and the step -/

/-- R171: the values the spec states for reset. `GPOLY` and the table entries are unspecified there, so nothing is said of
them here. -/
def Obligations.ResetLeavesTheStatedValues : Prop :=
  State.reset.builtM = false ∧ State.reset.builtL = false ∧ State.reset.builtG = false ∧
  State.reset.active = none ∧ State.reset.acc = 0xFFFFFFFF ∧
  State.reset.fault = false ∧ State.reset.cause = 0 ∧ State.reset.pending = []

/-- The reset state meets the invariant (R32: "It holds at reset"). That no entry holds a value is the model's reading of
R34 (notes/assumptions/2.md). -/
def Obligations.ResetMeetsTheInvariant : Prop :=
  BlockInvariant State.reset ∧ ∀ sl i, tblRead sl i State.reset = none

/-- R32: every step keeps the cache invariant, a legal cause and the canonical form of the memory, from every state that
has them, whatever the host does next. -/
def Obligations.EveryStepKeepsTheInvariant : Prop :=
  ∀ s t : State, BlockInvariant s → step s = .next t → BlockInvariant t

/-- A step on a command word is the meaning of the decoded command, on the state with the word taken off the inbox. -/
def Obligations.StepRunsTheDecodedCommand : Prop :=
  ∀ (s : State) (w : CmdWord) (rest : List HostEvent) (i : Instr),
    s.inbox = .command w :: rest → s.fault = false → decode w = .command i → i.wf = true →
    step s = exec i { s with inbox := rest }

/-- R63: a sequence of words presented to the machine is executed word after word, each on the state the one before it left,
and what the host does afterwards is still to come. -/
def Obligations.StepsRunTheCommandSequence : Prop :=
  (∀ (ws : List CmdWord) (rest : List HostEvent) (s : State),
    Sys2Proof.core.run ws.length { s with inbox := ws.map HostEvent.command ++ rest } =
      runWords ws { s with inbox := rest }) ∧
  (∀ (c : CmdWord) (cs ds : List CmdWord) (s t : State),
    runWords [c] s = acceptWord c s ∧
    (runWords cs s = .next t → runWords (cs ++ ds) s = runWords ds t))

/-- R162, R179: between commands the block waits with its state intact; it changes state only in response to an accepted
word or reset, and a response accepted by the host moves from the pending to the delivered end of the stream. -/
def Obligations.BlockActsOnlyOnTheHost : Prop :=
  (∀ s : State, s.inbox = [] → step s = .next s) ∧
  (∀ (s : State) (v : Word) (vs : List Word) (rest : List HostEvent),
    s.inbox = .takeResponse :: rest → s.pending = v :: vs →
    step s = .next { s with inbox := rest, pending := vs, delivered := s.delivered ++ [v] }) ∧
  (∀ (s : State) (rest : List HostEvent), s.inbox = .takeResponse :: rest → s.pending = [] →
    step s = .next { s with inbox := rest })

/-- R170, R64: reset by the pin, from any state. What `GPOLY` and the tables hold afterwards is unspecified, so nothing is
said of it. -/
def Obligations.ResetPinRestoresTheResetState : Prop :=
  ∀ (s : State) (rest : List HostEvent), s.inbox = .rst :: rest →
    ∃ t, step s = .next t ∧
      t.builtM = false ∧ t.builtL = false ∧ t.builtG = false ∧ t.active = none ∧ t.acc = 0xFFFFFFFF ∧
      t.fault = false ∧ t.cause = 0 ∧ t.pending = [] ∧ t.delivered = s.delivered ∧ t.inbox = rest

/-- R181: from a state that meets the invariant the machine never stops, whatever the host presents. -/
def Obligations.TheBlockNeverStops : Prop :=
  ∀ (n : Nat) (s : State), BlockInvariant s → ∃ t, Sys2Proof.core.run n s = .next t

/-- R61, R26, R64, R65: the output ports between commands. -/
def Obligations.PortsShowFaultAndTheOldestResponse : Prop :=
  ∀ (s : State) (r : Bool),
    (pins r s).fault = s.fault ∧ (pins r s).faultCode = s.cause ∧
    (pins true s).cmdReady = false ∧ (pins true s).rspValid = false ∧
    ((pins false s).rspValid = true ↔ ∃ v vs, s.pending = v :: vs ∧ (pins false s).rspData = some v)

/-! ## Faults -/

/-- R151: `IllegalCommand` is raised at decode, before any state but `FAULT` is read, by exactly the words that decode to
`Illegal`; it records code 1. -/
def Obligations.IllegalWordRaisesIllegalCommand : Prop :=
  ∀ (s : State) (w : CmdWord) (rest : List HostEvent), s.inbox = .command w :: rest → s.fault = false →
    ((∃ r, decode w = .illegal r) → step s = .next { s with inbox := rest, fault := true, cause := 1 }) ∧
    (∀ t, step s = .next t → t.cause = 1 → s.cause = 1 ∨ ∃ r, decode w = .illegal r)

/-- R152: `NoTable` is raised by `BYTE` and `RDTBL` while `ACTIVE = NONE`, records code 2 and changes nothing else; no other
command raises a fault, and none sets `ACTIVE` back to `NONE`. -/
def Obligations.NoTableIsRaisedOnlyWithoutATable : Prop :=
  (∀ (s : State) (b : Byte), s.active = none → s.fault = false →
    exec (.byte b) s = .next { s with fault := true, cause := 2 } ∧
    exec (.rdtbl b) s = .next { s with fault := true, cause := 2 }) ∧
  (∀ (i : Instr) (s t : State), exec i s = .next t → s.fault = false → t.fault = true →
    s.active = none ∧ t.cause = 2 ∧ ∃ b, i = .byte b ∨ i = .rdtbl b) ∧
  (∀ (i : Instr) (s t : State), exec i s = .next t → s.active ≠ none → t.active ≠ none)

/-- R153: when a step raises a fault, `FAULT` and `CAUSE` are all that changes; in particular no table entry, no built flag,
not `ACC`, `ACTIVE`, `GPOLY`, and no response is formed or lost. The pins show the new values and no later word has an
effect. -/
def Obligations.FaultEntryChangesNothingElse : Prop :=
  ∀ s t : State, step s = .next t → s.fault = false → t.fault = true →
    ∃ (w : CmdWord) (rest : List HostEvent) (k : Cause), s.inbox = .command w :: rest ∧
      t = { s with inbox := rest, fault := true, cause := k.code } ∧
      ((k = .illegalCommand ∧ ∃ r, decode w = .illegal r) ∨ (k = .noTable ∧ s.active = none)) ∧
      (∀ r, (pins r t).fault = true ∧ (pins r t).faultCode = k.code) ∧
      ∀ w' : CmdWord, acceptWord w' t = .next t

/-- R154: while `FAULT = 1` every accepted word, legal or not, is discarded, and the faulted state is left only by reset. -/
def Obligations.FaultedBlockDiscardsEveryWord : Prop :=
  (∀ (s : State) (w : CmdWord) (rest : List HostEvent), s.inbox = .command w :: rest → s.fault = true →
    step s = .next { s with inbox := rest }) ∧
  (∀ s t : State, step s = .next t → s.fault = true → (∀ rest, s.inbox ≠ .rst :: rest) → t.fault = true)

/-- R155: the decode check comes before the table check: a reserved word raises `IllegalCommand` though no table is
selected, the `BYTE` word with a reserved bit set straight after reset among them. -/
def Obligations.DecodeCheckComesFirst : Prop :=
  (∀ (s : State) (w : CmdWord) (r : Reserved), s.active = none → s.fault = false → decode w = .illegal r →
    acceptWord w s = .next { s with fault := true, cause := 1 }) ∧
  acceptWord 0x0500000100 State.reset = .next { State.reset with fault := true, cause := 1 } ∧
  acceptWord 0x0500000031 State.reset = .next { State.reset with fault := true, cause := 2 }

/-- R157: nothing but reset clears `FAULT`, which also discards all tables, and a second fault is not recorded. -/
def Obligations.OnlyResetClearsAFault : Prop :=
  (∀ s t : State, step s = .next t → s.fault = true → t.fault = false →
    (∃ rest, s.inbox = .rst :: rest) ∧ ∀ sl, t.built sl = false) ∧
  (∀ s t : State, step s = .next t → s.fault = true → t.fault = true → t.cause = s.cause)

/-! ## Table Generator -/

/-- R80: the convention is bit 31 of the polynomial, with the rule's corner cases and examples. -/
def Obligations.ClassifyIsTheTopBit : Prop :=
  (∀ p : Word, (classify p = .reflected ↔ 2 ^ 31 ≤ p.toNat) ∧ (classify p = .normal ↔ p.toNat < 2 ^ 31)) ∧
  classify 0x00000000 = .normal ∧ classify 0x7FFFFFFF = .normal ∧ classify 0x80000000 = .reflected ∧
  classify 0xFFFFFFFF = .reflected ∧ classify 0x04C11DB7 = .normal ∧ classify 0xEDB88320 = .reflected

/-- R84: the two-variable loop of the normal form is eight one-variable steps. -/
def Obligations.NormalGeneratorIsEightSteps : Prop :=
  ∀ (p : Word) (i : Byte), genNormal p i = nsteps p 8 (zext32 i <<< 24)

/-- R85: entry 0 is zero for every polynomial and both conventions. -/
def Obligations.EntryZeroIsZero : Prop :=
  ∀ (p : Word) (v : Convention), genTable p v 0 = 0

/-- R86: the polynomial, and its images under the one-bit step, stand at the powers of two. -/
def Obligations.PolynomialStandsInItsTable : Prop :=
  ∀ p : Word, genNormal p 1 = p ∧ genReflected p 128 = p ∧
    ∀ k, k < 8 → genNormal p (BitVec.ofNat 8 (2 ^ k)) = nsteps p k p ∧
      genReflected p (BitVec.ofNat 8 (2 ^ (7 - k))) = rsteps p k p

/-- R87: both tables are linear in the index. -/
def Obligations.TablesAreLinearInTheIndex : Prop :=
  ∀ (p : Word) (v : Convention) (i j : Byte), genTable p v (i ^^^ j) = genTable p v i ^^^ genTable p v j

/-- R88: within one convention the table determines the polynomial; across the two it does not: the whole family of 2^24
pairs has equal tables, and so has the single pair outside it. -/
def Obligations.EqualTablesWithinAndAcrossConventions : Prop :=
  (∀ (p q : Word) (v : Convention), genTable p v = genTable q v → p = q) ∧
  (∀ x : BitVec 24, classify (0x01000000 + x.setWidth 32) = .normal ∧
    classify (0x80000000 + (x.setWidth 32 <<< 7)) = .reflected ∧
    ∀ i, genNormal (0x01000000 + x.setWidth 32) i = genReflected (0x80000000 + (x.setWidth 32 <<< 7)) i) ∧
  (∀ i, genNormal 0x40501405 i = genReflected 0xA0280A02 i)

/-! ## Table Cache -/

/-- R100: `build` writes all 256 entries of its slot with the table of the polynomial under the convention of its top bit,
sets the slot's flag, and touches no other slot and no other register. -/
def Obligations.BuildWritesTheWholeTable : Prop :=
  ∀ (sl : Slot) (p : Word) (s : State),
    (∀ i, tblRead sl i (build sl p s) = some (genTable p (classify p) i)) ∧
    (∀ sl' i, sl' ≠ sl → tblRead sl' i (build sl p s) = tblRead sl' i s) ∧
    (build sl p s).built sl = true ∧
    (∀ sl', sl' ≠ sl → (build sl p s).built sl' = s.built sl') ∧
    (build sl p s).gpoly = s.gpoly ∧ (build sl p s).active = s.active ∧ (build sl p s).acc = s.acc ∧
    (build sl p s).fault = s.fault ∧ (build sl p s).cause = s.cause ∧ (build sl p s).pending = s.pending

/-- R101: `SELM`, in every state: miss, hit, what is not written, and the worked example. -/
def Obligations.SelmSelectsTheNormalNamedTable : Prop :=
  decode 0x0100000000 = .command .selm ∧
  (∀ s : State, ∃ t, exec .selm s = .next t ∧ t.active = some .m ∧ t.builtM = true ∧
    (s.builtM = false → ∀ i, tblRead .m i t = some (genTable 0x04C11DB7 .normal i)) ∧
    (s.builtM = true → t.mem = s.mem) ∧
    (s.builtM = true → s.active = some .m → t = s) ∧
    (∀ i, tblRead .l i t = tblRead .l i s ∧ tblRead .g i t = tblRead .g i s) ∧
    t.builtL = s.builtL ∧ t.builtG = s.builtG ∧ t.gpoly = s.gpoly ∧ t.acc = s.acc ∧
    t.fault = s.fault ∧ t.cause = s.cause ∧
    t.inbox = s.inbox ∧ t.pending = s.pending ∧ t.delivered = s.delivered) ∧
  (∃ t, acceptWord 0x0100000000 State.reset = .next t ∧ t.builtM = true ∧ t.active = some .m ∧
    tblRead .m 1 t = some 0x04C11DB7 ∧ tblRead .m 255 t = some 0xB1F740B4)

/-- R102: `SELL`, in every state: miss, hit, what is not written, and the worked example. -/
def Obligations.SellSelectsTheReflectedNamedTable : Prop :=
  decode 0x0200000000 = .command .sell ∧
  (∀ s : State, ∃ t, exec .sell s = .next t ∧ t.active = some .l ∧ t.builtL = true ∧
    (s.builtL = false → ∀ i, tblRead .l i t = some (genTable 0xEDB88320 .reflected i)) ∧
    (s.builtL = true → t.mem = s.mem) ∧
    (s.builtL = true → s.active = some .l → t = s) ∧
    (∀ i, tblRead .m i t = tblRead .m i s ∧ tblRead .g i t = tblRead .g i s) ∧
    t.builtM = s.builtM ∧ t.builtG = s.builtG ∧ t.gpoly = s.gpoly ∧ t.acc = s.acc ∧
    t.fault = s.fault ∧ t.cause = s.cause ∧
    t.inbox = s.inbox ∧ t.pending = s.pending ∧ t.delivered = s.delivered) ∧
  (∃ t, acceptWord 0x0200000000 State.reset = .next t ∧ t.builtL = true ∧ t.active = some .l ∧
    tblRead .l 1 t = some 0x77073096 ∧ tblRead .l 128 t = some 0xEDB88320 ∧ tblRead .l 255 t = some 0x2D02EF8D)

/-- R103: `SELG p`, in every state and for every polynomial, the named ones included: a miss when the slot is unbuilt or was
built from another polynomial, a hit otherwise, what is not written, and the worked example. -/
def Obligations.SelgSelectsTheGenericTable : Prop :=
  (∀ p : Word, decode ((0x03 : BitVec 8) ++ p) = .command (.selg p)) ∧
  (∀ (s : State) (p : Word), ∃ t, exec (.selg p) s = .next t ∧ t.active = some .g ∧ t.builtG = true ∧ t.gpoly = p ∧
    (s.builtG = false ∨ s.gpoly ≠ p → ∀ i, tblRead .g i t = some (genTable p (classify p) i)) ∧
    (s.builtG = true → s.gpoly = p → t.mem = s.mem) ∧
    (s.builtG = true → s.gpoly = p → s.active = some .g → t = s) ∧
    (∀ i, tblRead .m i t = tblRead .m i s ∧ tblRead .l i t = tblRead .l i s) ∧
    t.builtM = s.builtM ∧ t.builtL = s.builtL ∧ t.acc = s.acc ∧
    t.fault = s.fault ∧ t.cause = s.cause ∧
    t.inbox = s.inbox ∧ t.pending = s.pending ∧ t.delivered = s.delivered) ∧
  (∃ t, acceptWord 0x031EDC6F41 State.reset = .next t ∧ t.builtG = true ∧ t.gpoly = 0x1EDC6F41 ∧ t.active = some .g ∧
    convOf .g t = .normal ∧ tblRead .g 1 t = some 0x1EDC6F41 ∧ tblRead .g 128 t = some 0xC0C1D64F)

/-- R104: after any select, from a state that meets the cache invariant, the slot selected is built and holds the table of
its polynomial, whether the select hit or missed. -/
def Obligations.SelectEndsWithItsTable : Prop :=
  ∀ (i : Instr) (s t : State), CacheInvariant s → (i = .selm ∨ i = .sell ∨ ∃ p, i = .selg p) → exec i s = .next t →
    ∃ sl, t.active = some sl ∧ t.built sl = true ∧
      ∀ k, tblRead sl k t = some (genTable (polyOf sl t) (convOf sl t) k)

/-- R104: a select that always rebuilds leaves the very same state, from every state that meets the invariant: the cache is
purely an optimization. -/
def Obligations.AlwaysRebuildingChangesNothing : Prop :=
  ∀ s : State, BlockInvariant s →
    exec .selm s = .next ((build .m Config.polyM s).activate .m) ∧
    exec .sell s = .next ((build .l Config.polyL s).activate .l) ∧
    ∀ p : Word, exec (.selg p) s = .next (((build .g p s).setTag p).activate .g)

/-- R105: what `SELG` leaves in slot `G` does not depend on the named slots, for a named polynomial too. -/
def Obligations.GenericPathIgnoresTheNamedSlots : Prop :=
  ∀ (s : State) (p : Word) (tm tl : TableStore) (bm bl : Bool) (t u : State),
    exec (.selg p) s = .next t →
    exec (.selg p) { s with mem := { tblM := tm, tblL := tl, tblG := s.mem.tblG }, builtM := bm, builtL := bl } = .next u →
    u.mem.tblG = t.mem.tblG ∧ u.builtG = t.builtG ∧ u.gpoly = t.gpoly ∧ u.active = t.active ∧
    u.mem.tblM = tm ∧ u.mem.tblL = tl ∧ u.builtM = bm ∧ u.builtL = bl

/-- R106: no content of `GPOLY` means "empty": with the slot unbuilt `SELG 0` misses even when `GPOLY` happens to hold 0, and
builds the all-zero table; a second `SELG 0` changes nothing. -/
def Obligations.PolynomialZeroIsAPolynomial : Prop :=
  ∀ s : State, s.builtG = false → ∃ t, exec (.selg 0) s = .next t ∧ t.gpoly = 0 ∧ t.builtG = true ∧
    (∀ i, tblRead .g i t = some 0) ∧ exec (.selg 0) t = .next t

/-- R107: `SELG a; SELG b; SELG a` leaves the table of `a`, with no entry of the table of `b`. -/
def Obligations.GenericSlotKeepsNoStaleEntry : Prop :=
  ∀ (s t : State) (a b : Word), a ≠ b →
    runWords ([Instr.selg a, .selg b, .selg a].map encode) s = .next t → s.fault = false →
    t.gpoly = a ∧ ∀ i, tblRead .g i t = some (genTable a (classify a) i)

/-! ## CRC Engine -/

/-- R110: the two update rules, with the index as eight bits of the accumulator. -/
def Obligations.UpdateFollowsItsConvention : Prop :=
  ∀ (tbl : CrcTable) (a : Word) (b : Byte),
    update tbl .reflected a b = (a >>> 8) ^^^ tbl (a.extractLsb' 0 8 ^^^ b) ∧
    update tbl .normal a b = (a <<< 8) ^^^ tbl (a.extractLsb' 24 8 ^^^ b)

/-- R118: one table-driven update on a generated table is eight one-bit steps of the bit-serial process, for every
polynomial, accumulator and byte, under both conventions. -/
def Obligations.UpdateIsTheBitSerialProcess : Prop :=
  ∀ (p a : Word) (b : Byte),
    update (genReflected p) .reflected a b = rsteps p 8 (a ^^^ zext32 b) ∧
    update (genNormal p) .normal a b = nsteps p 8 (a ^^^ (zext32 b <<< 24))

/-- R111: `SETACC v`, in every state. -/
def Obligations.SetaccWritesTheAccumulator : Prop :=
  (∀ v : Word, decode ((0x04 : BitVec 8) ++ v) = .command (.setacc v)) ∧
  (∀ (s : State) (v : Word), exec (.setacc v) s = .next { s with acc := v })

/-- R112: `BYTE b` with a table selected, under both conventions, in every state that meets the cache invariant; the corner
cases (a) and (b) and the two worked examples. -/
def Obligations.ByteIsOneUpdateOfTheActiveTable : Prop :=
  (∀ b : Byte, decode ((0x05 : BitVec 8) ++ b.setWidth 32) = .command (.byte b)) ∧
  (∀ (s : State) (sl : Slot) (b : Byte), CacheInvariant s → s.active = some sl →
    (convOf sl s = .reflected → exec (.byte b) s =
      .next { s with acc := (s.acc >>> 8) ^^^ genTable (polyOf sl s) .reflected (s.acc.extractLsb' 0 8 ^^^ b) }) ∧
    (convOf sl s = .normal → exec (.byte b) s =
      .next { s with acc := (s.acc <<< 8) ^^^ genTable (polyOf sl s) .normal (s.acc.extractLsb' 24 8 ^^^ b) }) ∧
    (polyOf sl s = 0 → exec (.byte b) s = .next { s with acc := s.acc <<< 8 }) ∧
    (convOf sl s = .reflected → s.acc.extractLsb' 0 8 = b → exec (.byte b) s = .next { s with acc := s.acc >>> 8 }) ∧
    (convOf sl s = .normal → s.acc.extractLsb' 24 8 = b → exec (.byte b) s = .next { s with acc := s.acc <<< 8 }) ∧
    (sl = .l → s.acc = 0xFFFFFFFF → exec (.byte 0x31) s = .next { s with acc := 0x7C231048 }) ∧
    (sl = .m → s.acc = 0xFFFFFFFF → exec (.byte 0x31) s = .next { s with acc := 0x9EFBCF93 })) ∧
  (∀ (s : State) (b : Byte), s.active = none → s.fault = false →
    exec (.byte b) s = .next { s with fault := true, cause := 2 })

/-- R113: `GETCRC x`, in every state, and its corner cases and worked example. -/
def Obligations.GetcrcRespondsTheMaskedAccumulator : Prop :=
  (∀ x : Word, decode ((0x06 : BitVec 8) ++ x) = .command (.getcrc x)) ∧
  (∀ (s : State) (x : Word), exec (.getcrc x) s = .next { s with pending := s.pending ++ [s.acc ^^^ x] }) ∧
  (∀ s : State, exec (.getcrc 0) s = .next { s with pending := s.pending ++ [s.acc] } ∧
    exec (.getcrc 0xFFFFFFFF) s = .next { s with pending := s.pending ++ [~~~s.acc] }) ∧
  exec (.getcrc 0) State.reset = .next { State.reset with pending := [0xFFFFFFFF] } ∧
  (∀ s : State, s.acc = 0x340BC6D9 →
    exec (.getcrc 0xFFFFFFFF) s = .next { s with pending := s.pending ++ [0xCBF43926] })

/-- R114: `RDTBL i` with a table selected, in every state that meets the cache invariant; entry 0; without a table; and the
worked example. -/
def Obligations.RdtblRespondsOneEntry : Prop :=
  (∀ k : Byte, decode ((0x07 : BitVec 8) ++ k.setWidth 32) = .command (.rdtbl k)) ∧
  (∀ (s : State) (sl : Slot) (k : Byte), CacheInvariant s → s.active = some sl →
    exec (.rdtbl k) s = .next { s with pending := s.pending ++ [genTable (polyOf sl s) (convOf sl s) k] } ∧
    exec (.rdtbl 0) s = .next { s with pending := s.pending ++ [0] }) ∧
  (∀ (s : State) (k : Byte), s.active = none → s.fault = false →
    exec (.rdtbl k) s = .next { s with fault := true, cause := 2 }) ∧
  (∃ t, runWords [0x0200000000, 0x0700000080] State.reset = .next t ∧ t.pending = [0xEDB88320])

/-- R65: exactly `GETCRC` and `RDTBL` respond, exactly one word each, and only when they complete without fault; the others
and a faulting command never respond. -/
def Obligations.ExactlyGetcrcAndRdtblRespond : Prop :=
  ∀ (i : Instr) (s t : State), s.fault = false → exec i s = .next t →
    t.delivered = s.delivered ∧
    (t.fault = true → t.pending = s.pending) ∧
    (t.fault = false → ((∃ x, i = .getcrc x) ∨ ∃ k, i = .rdtbl k) → ∃ v, t.pending = s.pending ++ [v]) ∧
    (((∀ x, i ≠ .getcrc x) ∧ ∀ k, i ≠ .rdtbl k) → t.pending = s.pending)

/-- The frame of the commands of the engine: no table entry, no built flag, not `GPOLY` and not `ACTIVE` changes; `GETCRC` and
`RDTBL` leave `ACC`; `FAULT` and `CAUSE` change only when a fault is raised (R40, R22, R112 to R114). -/
def Obligations.EngineCommandsFrame : Prop :=
  ∀ (i : Instr) (s t : State),
    ((∃ v, i = .setacc v) ∨ (∃ b, i = .byte b) ∨ (∃ x, i = .getcrc x) ∨ ∃ k, i = .rdtbl k) →
    exec i s = .next t →
    (∀ sl k, tblRead sl k t = tblRead sl k s) ∧ (∀ sl, t.built sl = s.built sl) ∧
    t.gpoly = s.gpoly ∧ t.active = s.active ∧ t.inbox = s.inbox ∧ t.delivered = s.delivered ∧
    (((∃ x, i = .getcrc x) ∨ ∃ k, i = .rdtbl k) → t.acc = s.acc) ∧
    (t.fault = s.fault → t.cause = s.cause) ∧
    (t.fault ≠ s.fault → t.acc = s.acc ∧ t.pending = s.pending)

/-- The frame of the select commands: the entries of every slot but the one selected, and on a hit of that one too, the
other built flags, `ACC`, `FAULT`, `CAUSE` and the response stream; `GPOLY` changes only with `SELG` (R101 to R103). -/
def Obligations.SelectCommandsFrame : Prop :=
  ∀ (i : Instr) (sl : Slot) (s t : State),
    (i = .selm ∧ sl = .m ∨ i = .sell ∧ sl = .l ∨ ∃ p, i = .selg p ∧ sl = .g) → exec i s = .next t →
    (∀ sl' k, sl' ≠ sl → tblRead sl' k t = tblRead sl' k s) ∧
    (isMiss i s = false → ∀ k, tblRead sl k t = tblRead sl k s) ∧
    (∀ sl', sl' ≠ sl → t.built sl' = s.built sl') ∧
    (sl ≠ .g → t.gpoly = s.gpoly) ∧
    t.acc = s.acc ∧ t.fault = s.fault ∧ t.cause = s.cause ∧
    t.inbox = s.inbox ∧ t.pending = s.pending ∧ t.delivered = s.delivered

/-- R177: asking again for the table that is active is harmless at any point of a fold: it leaves the whole state. -/
def Obligations.SelectingTheActiveTableAgainIsHarmless : Prop :=
  ∀ (s : State) (sl : Slot), CacheInvariant s → s.active = some sl → exec (selectAgain sl s) s = .next s

/-- R115, R116: a `FOLD` of any byte string, with a table active, folds the string into `ACC` and changes nothing else. -/
def Obligations.FoldSequenceFoldsTheString : Prop :=
  ∀ (s : State) (sl : Slot) (d : List Byte), BlockInvariant s → s.fault = false → s.active = some sl →
    runWords (Pseudo.fold d).words s =
      .next { s with acc := fold (genTable (polyOf sl s) (convOf sl s)) (convOf sl s) s.acc d }

/-- R117: a fold under any active table may be suspended by reading `ACC` with `GETCRC 0`, followed by any other commands
whatever (selects of named or generic tables, other folds, reads), and resumed by selecting the same table again and
restoring `ACC`: all of it goes through without a fault, and the result is that of the whole string. For slot `G` the
select takes the polynomial that was active when the fold was suspended. -/
def Obligations.SuspendedFoldResumes : Prop :=
  ∀ (s : State) (sl : Slot) (d₁ d₂ : List Byte) (cs : List Instr), BlockInvariant s → s.fault = false →
    s.active = some sl →
    ∃ t saved u,
      runWords ((Pseudo.fold d₁).words ++ [encode (.getcrc 0)]) s = .next t ∧
      t.pending = s.pending ++ [saved] ∧
      runWords (cs.map encode ++ [encode (selectAgain sl s), encode (.setacc saved)] ++ (Pseudo.fold d₂).words) t =
        .next u ∧
      u.acc = fold (genTable (polyOf sl s) (convOf sl s)) (convOf sl s) s.acc (d₁ ++ d₂) ∧
      u.active = some sl ∧ u.fault = false

/-- R119: the order of the bytes matters: the rule's witness under both named polynomials. -/
def Obligations.FoldIsOrderSensitive : Prop :=
  fold (genReflected 0xEDB88320) .reflected 0xFFFFFFFF [0x61, 0x62, 0x63] = 0xCADBBE3D ∧
  fold (genReflected 0xEDB88320) .reflected 0xFFFFFFFF [0x63, 0x62, 0x61] = 0x27510B7F ∧
  fold (genNormal 0x04C11DB7) .normal 0xFFFFFFFF [0x61, 0x62, 0x63] = 0x9B73448C ∧
  fold (genNormal 0x04C11DB7) .normal 0xFFFFFFFF [0x63, 0x62, 0x61] = 0x914026EC

/-! ## Variant Façade -/

/-- R131, R132: the expansion of `MPEG2`, the one word it responds and the state it leaves, from every fault-free state that
meets the invariant, for every byte string; `FSC` is the same command sequence; the known answer. -/
def Obligations.Mpeg2SequenceRespondsItsChecksum : Prop :=
  (∀ (d : List Byte) (init : Option Word),
    (Pseudo.mpeg2 d init).words =
      [0x0100000000, (0x04 : BitVec 8) ++ init.getD 0xFFFFFFFF] ++
        d.map (fun b => (0x05 : BitVec 8) ++ b.setWidth 32) ++ [0x0600000000] ∧
    (Pseudo.fsc d init).words = (Pseudo.mpeg2 d init).words) ∧
  (∀ (s : State) (d : List Byte) (init : Option Word), BlockInvariant s → s.fault = false →
    ∃ t, runWords (Pseudo.mpeg2 d init).words s = .next t ∧
      t.pending = s.pending ++ [fold (genNormal 0x04C11DB7) .normal (init.getD 0xFFFFFFFF) d] ∧
      t.acc = fold (genNormal 0x04C11DB7) .normal (init.getD 0xFFFFFFFF) d ∧
      t.active = some .m ∧ t.builtM = true ∧ t.fault = false) ∧
  (∀ init : Word, fold (genNormal 0x04C11DB7) .normal init [] = init) ∧
  fold (genNormal 0x04C11DB7) .normal 0xFFFFFFFF [0x31, 0x32, 0x33, 0x34, 0x35, 0x36, 0x37, 0x38, 0x39] = 0x0376E6E7

/-- R133: the expansion of `CRC32`, the one word it responds and the state it leaves, from every fault-free state that meets
the invariant, for every byte string, the empty one too; the known answer. -/
def Obligations.Crc32SequenceRespondsItsChecksum : Prop :=
  (∀ (d : List Byte) (init : Option Word),
    (Pseudo.crc32 d init).words =
      [0x0200000000, (0x04 : BitVec 8) ++ init.getD 0xFFFFFFFF] ++
        d.map (fun b => (0x05 : BitVec 8) ++ b.setWidth 32) ++ [0x06FFFFFFFF]) ∧
  (∀ (s : State) (d : List Byte) (init : Option Word), BlockInvariant s → s.fault = false →
    ∃ t, runWords (Pseudo.crc32 d init).words s = .next t ∧
      t.pending = s.pending ++ [fold (genReflected 0xEDB88320) .reflected (init.getD 0xFFFFFFFF) d ^^^ 0xFFFFFFFF] ∧
      t.acc = fold (genReflected 0xEDB88320) .reflected (init.getD 0xFFFFFFFF) d ∧
      t.active = some .l ∧ t.builtL = true ∧ t.fault = false) ∧
  (∀ (s t : State), BlockInvariant s → s.fault = false → runWords (Pseudo.crc32 [] none).words s = .next t →
    t.pending = s.pending ++ [0x00000000]) ∧
  fold (genReflected 0xEDB88320) .reflected 0xFFFFFFFF [0x31, 0x32, 0x33, 0x34, 0x35, 0x36, 0x37, 0x38, 0x39] =
    0x340BC6D9 ∧
  (0x340BC6D9 : Word) ^^^ 0xFFFFFFFF = 0xCBF43926

/-- R134: `TABLE32 p` responds the 256 entries of the table of `p`, index 0 first, through the slot the host's comparison
chooses, and leaves `ACC`. -/
def Obligations.Table32SequenceRespondsTheTable : Prop :=
  (∀ p : Word, (Pseudo.table32 p).words =
    (if p = 0x04C11DB7 then 0x0100000000 else if p = 0xEDB88320 then 0x0200000000 else (0x03 : BitVec 8) ++ p) ::
      (List.range 256).map (fun i => (0x07 : BitVec 8) ++ BitVec.ofNat 32 i)) ∧
  (∀ (s : State) (p : Word), BlockInvariant s → s.fault = false →
    ∃ t sl, runWords (Pseudo.table32 p).words s = .next t ∧
      t.pending = s.pending ++ (List.range 256).map (fun i => genTable p (classify p) (BitVec.ofNat 8 i)) ∧
      (p = 0x04C11DB7 → sl = .m) ∧ (p = 0xEDB88320 → sl = .l) ∧
      (p ≠ 0x04C11DB7 → p ≠ 0xEDB88320 → sl = .g ∧ t.gpoly = p) ∧
      t.active = some sl ∧ t.built sl = true ∧ t.acc = s.acc ∧ t.fault = false)

/-- R135: the expansion of `HACKER32`, the one word it responds and the state it leaves, from every fault-free state that
meets the invariant, for every byte string, polynomial, initial value and mask; the worked example. -/
def Obligations.Hacker32SequenceRespondsItsChecksum : Prop :=
  (∀ (d : List Byte) (poly init xorout : Option Word),
    (Pseudo.hacker32 d poly init xorout).words =
      [(0x03 : BitVec 8) ++ poly.getD 0xEDB88320, (0x04 : BitVec 8) ++ init.getD 0xFFFFFFFF] ++
        d.map (fun b => (0x05 : BitVec 8) ++ b.setWidth 32) ++ [(0x06 : BitVec 8) ++ xorout.getD 0x00000000]) ∧
  (∀ (s : State) (d : List Byte) (poly init xorout : Option Word) (p : Word), BlockInvariant s → s.fault = false →
    p = poly.getD 0xEDB88320 →
    ∃ t, runWords (Pseudo.hacker32 d poly init xorout).words s = .next t ∧
      t.pending = s.pending ++
        [fold (genTable p (classify p)) (classify p) (init.getD 0xFFFFFFFF) d ^^^ xorout.getD 0x00000000] ∧
      t.acc = fold (genTable p (classify p)) (classify p) (init.getD 0xFFFFFFFF) d ∧
      t.active = some .g ∧ t.builtG = true ∧ t.gpoly = p ∧ t.fault = false) ∧
  (∀ (d : List Byte) (a : Word), fold (genTable 0 (classify 0)) (classify 0) a d = a <<< (8 * d.length) ∧
    (4 ≤ d.length → fold (genTable 0 (classify 0)) (classify 0) a d = 0)) ∧
  fold (genTable 0xEDB88320 (classify 0xEDB88320)) (classify 0xEDB88320) 0xFFFFFFFF
    [0x31, 0x32, 0x33, 0x34, 0x35, 0x36, 0x37, 0x38, 0x39] = 0x340BC6D9

/-- R136: each preset responds the same words as `HACKER32` with the preset's constants, from every fault-free state that
meets the invariant. -/
def Obligations.PresetsAgreeWithTheGenericOperation : Prop :=
  ∀ (s t u : State) (d : List Byte) (init : Option Word), BlockInvariant s → s.fault = false →
    (runWords (Pseudo.mpeg2 d init).words s = .next t →
      runWords (Pseudo.hacker32 d (some 0x04C11DB7) init (some 0x00000000)).words s = .next u → t.pending = u.pending) ∧
    (runWords (Pseudo.crc32 d init).words s = .next t →
      runWords (Pseudo.hacker32 d (some 0xEDB88320) init (some 0xFFFFFFFF)).words s = .next u → t.pending = u.pending)

/-- R180, R133: a whole run from reset: the host presents `CRC32 d` and takes the one response; the run has ended, it is
successful, and the host has received the checksum of `d`, whatever `d` is. -/
def Obligations.RunOfCrc32FromResetDeliversTheChecksum : Prop :=
  ∀ d : List Byte, ∃ t,
    Sys2Proof.core.run (d.length + 4)
      { State.reset with inbox := (Pseudo.crc32 d none).words.map HostEvent.command ++ [.takeResponse] } = .next t ∧
    RunSucceeded t ∧
    t.delivered = [fold (genReflected 0xEDB88320) .reflected 0xFFFFFFFF d ^^^ 0xFFFFFFFF]

/-! ## What the host can tell -/

/-- R33, R183: two states that differ only in which slots are built, and in the tag of a generic slot that is not active,
stay indistinguishable to the host for ever, whatever it does: no response, pin or fault depends on hit or miss. -/
def Obligations.CacheStateIsInvisibleToTheHost : Prop :=
  ∀ (n : Nat) (s t : State), BlockInvariant s → BlockInvariant t → SameToHost s t →
    SameOutcome SameToHost (Sys2Proof.core.run n s) (Sys2Proof.core.run n t)

/-- R34: no rule reads an element that R34 leaves unspecified: states that agree wherever a value is specified go on agreeing,
whatever their unbuilt stores and their unset `GPOLY` hold. -/
def Obligations.UnspecifiedElementsAreNeverRead : Prop :=
  ∀ (n : Nat) (s t : State), (∀ sl, s.active = some sl → s.built sl = true) → AgreeWhereSpecified s t →
    SameOutcome AgreeWhereSpecified (Sys2Proof.core.run n s) (Sys2Proof.core.run n t)

/-! ## Assembler -/

/-- R73: the assembler reads back every command as it is written, and a comment after it changes nothing. -/
def Obligations.AssemblerReadsBackEveryCommand : Prop :=
  ∀ (i : Instr) (c : List Char),
    assembleLine (printCommand i) = .command i ∧ assembleLine (printCommand i ++ (';' :: c)) = .command i

/-- R73, said of lines: for every mnemonic and every string of hexadecimal digits, the line is the command with exactly the
value of the digits, all of them, when there are 1 to 8 and the value fits the form, and is rejected otherwise; a `Z`
mnemonic takes no operand and any other does not stand without one. The value of a digit string is its positional value to
the base 16. That lower-case digits are read too, and that one space separates the operand, is the model's choice
(notes/assumptions/10.md). The last clause says the same of the check alone, on any operand. -/
def Obligations.AssemblerNeverTruncates : Prop :=
  (∀ k, k < 16 → hexDigitValue (hexDigit k) = some k) ∧
  (∀ (m : Mnemonic) (ds : List Char) (ns : List Nat), ds.map hexDigitValue = ns.map some →
    (m.form ≠ .z → 1 ≤ ds.length → ds.length ≤ 8 → (m.form = .u8 → Nat.ofDigits 16 ns.reverse < 256) →
      ∃ i, assembleLine (mnemonicSpelling m ++ [' ', '0', 'x'] ++ ds) = .command i ∧
        i.source = ⟨m, some (Nat.ofDigits 16 ns.reverse)⟩) ∧
    (m.form = .z ∨ ds.length = 0 ∨ 8 < ds.length ∨ (m.form = .u8 ∧ 256 ≤ Nat.ofDigits 16 ns.reverse) →
      ∃ e, assembleLine (mnemonicSpelling m ++ [' ', '0', 'x'] ++ ds) = .rejected e)) ∧
  (∀ m : Mnemonic,
    (m.form = .z → ∃ i, assembleLine (mnemonicSpelling m) = .command i ∧ i.source = ⟨m, none⟩) ∧
    (m.form ≠ .z → assembleLine (mnemonicSpelling m) = .rejected .operandDoesNotFit)) ∧
  (∀ c : Source,
    (c.wf = true → ∃ i, finishLine c = .command i ∧ i.source = c) ∧
    (c.wf = false → finishLine c = .rejected .operandDoesNotFit))

/-- R74: the assembler expands a pseudo-instruction: `TABLE32` with every polynomial, and in a program the line of any
pseudo-instruction stands for its command sequence. -/
def Obligations.AssemblerExpandsPseudoInstructions : Prop :=
  (∀ p : Word, assembleLine (pseudoSpelling .table32 ++ [' ', '0', 'x'] ++ hexDigits 8 p.toNat) =
    .sequence (.table32 p)) ∧
  (∀ (line : List Char) (q : Pseudo) (rest : List (List Char)) (is : List Instr),
    assembleLine line = .sequence q → assembleProgram rest = .ok is →
    assembleProgram (line :: rest) = .ok (q.expand ++ is))
end

