-- ==== Sys2Proof/Laws/Assembler.lean ====
section
/-! SUPPORT. What the assembler reads: fields without blanks, comments, digit strings and literals (spec/30_encoding.md
R73). -/

namespace Sys2Proof.Machine

/-- A character that stands inside a field: no blank and no start of a comment. -/
def inField (c : Char) : Bool :=
  !isBlank c && c != ';'

/-- The comment is what follows the first `;`. -/
theorem stripComment_field (f t : List Char) (h : ∀ c ∈ f, inField c = true) :
    stripComment (f ++ t) = f ++ stripComment t := by
  induction f with
  | nil => rfl
  | cons c f ih =>
    have hc : c ≠ ';' := by have := h c (by simp); simp [inField] at this; exact this.2
    simp only [List.cons_append, stripComment, if_neg hc, ih fun x hx => h x (by simp [hx])]

/-- Characters of a field are gathered into it. -/
theorem splitFields_field (f t cur : List Char) (h : ∀ c ∈ f, inField c = true) :
    splitFields cur (f ++ t) = splitFields (f.reverse ++ cur) t := by
  induction f generalizing cur with
  | nil => rfl
  | cons c f ih =>
    have hc : isBlank c = false := by have := h c (by simp); simp [inField] at this; exact this.1
    rw [List.cons_append, splitFields, hc, if_neg Bool.false_ne_true, ih _ fun x hx => h x (by simp [hx])]
    simp

/-- A line that is one field. -/
theorem fields_one (f : List Char) (h : ∀ c ∈ f, inField c = true) (hf : f ≠ []) :
    splitFields [] (stripComment f) = [f] := by
  have h1 := stripComment_field f [] h
  have h2 := splitFields_field f [] [] h
  simp only [List.append_nil, stripComment] at h1 h2
  rw [h1, h2]
  simp [splitFields, hf]

/-- A line that is two fields with a space between. -/
theorem fields_two (f o : List Char) (h : ∀ c ∈ f, inField c = true) (hf : f ≠ []) (ho : ∀ c ∈ o, inField c = true)
    (hn : o ≠ []) : splitFields [] (stripComment (f ++ ' ' :: o)) = [f, o] := by
  have h1 := stripComment_field o [] ho
  have h2 := splitFields_field o [] [] ho
  simp only [List.append_nil, stripComment] at h1 h2
  rw [stripComment_field f _ h, stripComment, if_neg (by decide), h1, splitFields_field f _ _ h, splitFields]
  simp [isBlank, hf, h2, splitFields, hn]

theorem mnemonicSpelling_inField (m : Mnemonic) : ∀ c ∈ mnemonicSpelling m, inField c = true := by
  cases m <;> simp [mnemonicSpelling, inField, isBlank]

theorem mnemonicSpelling_ne_nil (m : Mnemonic) : mnemonicSpelling m ≠ [] := by cases m <;> decide

/-- Every spelling names its mnemonic. -/
@[simp] theorem mnemonicOf_spelling (m : Mnemonic) : mnemonicOf (mnemonicSpelling m) = some m := by cases m <;> rfl

/-- A hexadecimal digit stands inside a field. -/
theorem inField_of_digit {c : Char} {d : Nat} (h : hexDigitValue c = some d) : inField c = true := by
  have hb : ∀ e : Char, hexDigitValue e = none → c ≠ e := by rintro e he rfl; simp [h] at he
  simp [inField, isBlank, hb ' ' (by decide), hb '\t' (by decide), hb ';' (by decide)]

/-- The digit written for a value is read back as that value. -/
theorem hexDigitValue_hexDigit {k : Nat} (h : k < 16) : hexDigitValue (hexDigit k) = some k := by
  revert h; revert k; decide

/-- The value of a digit string is its positional value, all digits counted. -/
theorem hexValue_digits (ds : List Char) (ns : List Nat) (acc : Nat) (h : ds.map hexDigitValue = ns.map some) :
    hexValue acc ds = some (acc * 16 ^ ns.length + Nat.ofDigits 16 ns.reverse) := by
  induction ds generalizing ns acc with
  | nil => cases ns with
    | nil => simp [hexValue]
    | cons _ _ => simp at h
  | cons c ds ih => cases ns with
    | nil => simp at h
    | cons n ns =>
      simp only [List.map_cons, List.cons.injEq] at h
      simp only [hexValue, h.1, ih ns _ h.2, List.reverse_cons, Nat.ofDigits_append, List.length_reverse,
        Nat.ofDigits_singleton, List.length_cons, pow_succ]
      congr 1
      ring

/-- A literal of 1 to 8 digits is its positional value, and any other number of digits is no literal. -/
theorem literalValue_digits (ds : List Char) (ns : List Nat) (h : ds.map hexDigitValue = ns.map some) :
    literalValue ('0' :: 'x' :: ds) =
      if 1 ≤ ds.length ∧ ds.length ≤ 8 then some (Nat.ofDigits 16 ns.reverse) else none := by
  simp [literalValue, hexValue_digits ds ns 0 h]

/-- A line that is a mnemonic alone. -/
theorem assembleLine_alone (m : Mnemonic) : assembleLine (mnemonicSpelling m) = finishLine ⟨m, none⟩ := by
  simp [assembleLine, fields_one _ (mnemonicSpelling_inField m) (mnemonicSpelling_ne_nil m), assembleCommand]

/-- A line that is a mnemonic and an operand of one field. -/
theorem assembleLine_operand (m : Mnemonic) (o : List Char) (ho : ∀ c ∈ o, inField c = true) (hn : o ≠ []) :
    assembleLine (mnemonicSpelling m ++ ' ' :: o) =
      match literalValue o with
      | none => .rejected .badLiteral
      | some n => finishLine ⟨m, some n⟩ := by
  unfold assembleLine
  rw [fields_two _ o (mnemonicSpelling_inField m) (mnemonicSpelling_ne_nil m) ho hn]
  cases h : literalValue o <;> simp only [mnemonicOf_spelling, assembleCommand, h]

end Sys2Proof.Machine
end

