-- ==== Sys2Proof/Laws/Encoding.lean ====
section
/-! SUPPORT. What the fields of a word built from its fields are (spec/30_encoding.md R66, R67), and the operand forms. -/

namespace Sys2Proof

@[simp] theorem opField_mkWord (op : BitVec 8) (a : Word) : opField (mkWord op a) = op := by
  apply BitVec.eq_of_getLsbD_eq
  intro i hi
  simp only [opField, mkWord, BitVec.getLsbD_extractLsb', hi, decide_true, Bool.true_and]
  rw [BitVec.getLsbD_append, if_neg (by omega)]
  congr 1
  omega

@[simp] theorem argField_mkWord (op : BitVec 8) (a : Word) : argField (mkWord op a) = a := by
  apply BitVec.eq_of_getLsbD_eq
  intro i hi
  simp only [argField, mkWord, BitVec.getLsbD_extractLsb', hi, decide_true, Bool.true_and, Nat.zero_add]
  rw [BitVec.getLsbD_append, if_pos hi]

/-- A word is its two fields and nothing else (R66). -/
theorem mkWord_fields (w : CmdWord) : mkWord (opField w) (argField w) = w := by
  apply BitVec.eq_of_getLsbD_eq
  intro i hi
  simp only [mkWord, BitVec.getLsbD_append, opField, argField, BitVec.getLsbD_extractLsb']
  by_cases h : i < 32
  · simp [h]
  · rw [if_neg h, decide_eq_true (by omega : i - 32 < 8), Bool.true_and]
    congr 1
    omega

@[simp] theorem argByte_zext32 (b : Byte) : argByte (zext32 b) = b := by
  apply BitVec.eq_of_getLsbD_eq
  intro i hi
  simp [argByte, zext32, hi]
  omega

@[simp] theorem legal_z (a : Word) : Form.legal .z a = true ↔ a = 0 := by
  simp [Form.legal]

@[simp] theorem legal_u32 (a : Word) : Form.legal .u32 a = true := rfl

/-- An operand field is legal for `U8` exactly when it is a zero-extended byte (R67). -/
theorem legal_u8_iff (a : Word) : Form.legal .u8 a = true ↔ zext32 (argByte a) = a := by
  simp only [Form.legal, beq_iff_eq]
  constructor
  · intro h
    apply BitVec.eq_of_getLsbD_eq
    intro i hi
    by_cases h8 : i < 8
    · simp [zext32, argByte, h8, hi]
    · have := congrArg (fun v => v.getLsbD (i - 8)) h
      simp only [BitVec.getLsbD_extractLsb', show 8 + (i - 8) = i by omega, show i - 8 < 24 by omega, decide_true,
        Bool.true_and, BitVec.ofNat_eq_ofNat, BitVec.getLsbD_zero] at this
      simp [zext32, argByte, h8, this]
  · intro h
    rw [← h]
    apply BitVec.eq_of_getLsbD_eq
    intro i hi
    simp [zext32]

@[simp] theorem legal_u8_zext32 (b : Byte) : Form.legal .u8 (zext32 b) = true := by
  rw [legal_u8_iff, argByte_zext32]

/-- The operand field of every command is legal for its form (R67). -/
theorem legal_arg (i : Instr) : i.form.legal i.arg = true := by
  cases i <;> simp [Instr.form, Instr.mnemonic, Mnemonic.form, Instr.arg]

@[simp] theorem opField_encode (i : Instr) : opField (encode i) = i.mnemonic.opcode := opField_mkWord _ _

@[simp] theorem argField_encode (i : Instr) : argField (encode i) = i.arg := argField_mkWord _ _

end Sys2Proof
end

