-- ==== Sys2Proof/Laws/State.lean ====
section
/-! SUPPORT. One lemma per field per update, so that no proof unfolds an update of the state; and what each accessor reads
after each update. -/

namespace Sys2Proof.Machine

section Respond
variable (v : Word) (s : State)
@[simp] theorem respond_mem : (respond v s).mem = s.mem := rfl
@[simp] theorem respond_builtM : (respond v s).builtM = s.builtM := rfl
@[simp] theorem respond_builtL : (respond v s).builtL = s.builtL := rfl
@[simp] theorem respond_builtG : (respond v s).builtG = s.builtG := rfl
@[simp] theorem respond_gpoly : (respond v s).gpoly = s.gpoly := rfl
@[simp] theorem respond_active : (respond v s).active = s.active := rfl
@[simp] theorem respond_acc : (respond v s).acc = s.acc := rfl
@[simp] theorem respond_fault : (respond v s).fault = s.fault := rfl
@[simp] theorem respond_cause : (respond v s).cause = s.cause := rfl
@[simp] theorem respond_inbox : (respond v s).inbox = s.inbox := rfl
@[simp] theorem respond_pending : (respond v s).pending = s.pending ++ [v] := rfl
@[simp] theorem respond_delivered : (respond v s).delivered = s.delivered := rfl
end Respond

section RaiseFault
variable (k : Cause) (s : State)
theorem raiseFault_of_fault (h : s.fault = true) : raiseFault k s = s := by simp [raiseFault, h]
theorem raiseFault_of_clear (h : s.fault = false) : raiseFault k s = { s with fault := true, cause := k.code } := by
  simp [raiseFault, h]
@[simp] theorem raiseFault_mem : (raiseFault k s).mem = s.mem := by unfold raiseFault; split <;> rfl
@[simp] theorem raiseFault_builtM : (raiseFault k s).builtM = s.builtM := by unfold raiseFault; split <;> rfl
@[simp] theorem raiseFault_builtL : (raiseFault k s).builtL = s.builtL := by unfold raiseFault; split <;> rfl
@[simp] theorem raiseFault_builtG : (raiseFault k s).builtG = s.builtG := by unfold raiseFault; split <;> rfl
@[simp] theorem raiseFault_gpoly : (raiseFault k s).gpoly = s.gpoly := by unfold raiseFault; split <;> rfl
@[simp] theorem raiseFault_active : (raiseFault k s).active = s.active := by unfold raiseFault; split <;> rfl
@[simp] theorem raiseFault_acc : (raiseFault k s).acc = s.acc := by unfold raiseFault; split <;> rfl
@[simp] theorem raiseFault_fault : (raiseFault k s).fault = true := by unfold raiseFault; split <;> simp_all
@[simp] theorem raiseFault_inbox : (raiseFault k s).inbox = s.inbox := by unfold raiseFault; split <;> rfl
@[simp] theorem raiseFault_pending : (raiseFault k s).pending = s.pending := by unfold raiseFault; split <;> rfl
@[simp] theorem raiseFault_delivered : (raiseFault k s).delivered = s.delivered := by unfold raiseFault; split <;> rfl
end RaiseFault

section ApplyReset
variable (s : State)
@[simp] theorem applyReset_mem : (applyReset s).mem = ⟨[], [], []⟩ := rfl
@[simp] theorem applyReset_builtM : (applyReset s).builtM = false := rfl
@[simp] theorem applyReset_builtL : (applyReset s).builtL = false := rfl
@[simp] theorem applyReset_builtG : (applyReset s).builtG = false := rfl
@[simp] theorem applyReset_gpoly : (applyReset s).gpoly = Config.gpolyAtReset := rfl
@[simp] theorem applyReset_active : (applyReset s).active = none := rfl
@[simp] theorem applyReset_acc : (applyReset s).acc = Config.initDefault := rfl
@[simp] theorem applyReset_fault : (applyReset s).fault = false := rfl
@[simp] theorem applyReset_cause : (applyReset s).cause = 0 := rfl
@[simp] theorem applyReset_inbox : (applyReset s).inbox = s.inbox := rfl
@[simp] theorem applyReset_pending : (applyReset s).pending = [] := rfl
@[simp] theorem applyReset_delivered : (applyReset s).delivered = s.delivered := rfl
end ApplyReset

section Deliver
variable (s : State)
@[simp] theorem deliver_mem : (deliver s).mem = s.mem := by unfold deliver; split <;> rfl
@[simp] theorem deliver_builtM : (deliver s).builtM = s.builtM := by unfold deliver; split <;> rfl
@[simp] theorem deliver_builtL : (deliver s).builtL = s.builtL := by unfold deliver; split <;> rfl
@[simp] theorem deliver_builtG : (deliver s).builtG = s.builtG := by unfold deliver; split <;> rfl
@[simp] theorem deliver_gpoly : (deliver s).gpoly = s.gpoly := by unfold deliver; split <;> rfl
@[simp] theorem deliver_active : (deliver s).active = s.active := by unfold deliver; split <;> rfl
@[simp] theorem deliver_acc : (deliver s).acc = s.acc := by unfold deliver; split <;> rfl
@[simp] theorem deliver_fault : (deliver s).fault = s.fault := by unfold deliver; split <;> rfl
@[simp] theorem deliver_cause : (deliver s).cause = s.cause := by unfold deliver; split <;> rfl
@[simp] theorem deliver_inbox : (deliver s).inbox = s.inbox := by unfold deliver; split <;> rfl
/-- Delivery moves words from the pending end of the response stream to the delivered end and loses none. -/
theorem deliver_stream : (deliver s).delivered ++ (deliver s).pending = s.delivered ++ s.pending := by
  unfold deliver; split <;> simp_all
end Deliver

section SetBuilt
variable (s : State) (sl : Slot)
@[simp] theorem setBuilt_mem : (s.setBuilt sl).mem = s.mem := by cases sl <;> rfl
@[simp] theorem setBuilt_gpoly : (s.setBuilt sl).gpoly = s.gpoly := by cases sl <;> rfl
@[simp] theorem setBuilt_active : (s.setBuilt sl).active = s.active := by cases sl <;> rfl
@[simp] theorem setBuilt_acc : (s.setBuilt sl).acc = s.acc := by cases sl <;> rfl
@[simp] theorem setBuilt_fault : (s.setBuilt sl).fault = s.fault := by cases sl <;> rfl
@[simp] theorem setBuilt_cause : (s.setBuilt sl).cause = s.cause := by cases sl <;> rfl
@[simp] theorem setBuilt_inbox : (s.setBuilt sl).inbox = s.inbox := by cases sl <;> rfl
@[simp] theorem setBuilt_pending : (s.setBuilt sl).pending = s.pending := by cases sl <;> rfl
@[simp] theorem setBuilt_delivered : (s.setBuilt sl).delivered = s.delivered := by cases sl <;> rfl
/-- The flag that is set reads 1; the others read as before. -/
theorem built_setBuilt (sl' : Slot) : (s.setBuilt sl).built sl' = (decide (sl' = sl) || s.built sl') := by
  cases sl <;> cases sl' <;> simp [State.setBuilt, State.built]
end SetBuilt

section Activate
variable (s : State) (sl sl' : Slot) (p : Word)
@[simp] theorem activate_mem : (s.activate sl).mem = s.mem := rfl
@[simp] theorem activate_builtM : (s.activate sl).builtM = s.builtM := rfl
@[simp] theorem activate_builtL : (s.activate sl).builtL = s.builtL := rfl
@[simp] theorem activate_builtG : (s.activate sl).builtG = s.builtG := rfl
@[simp] theorem activate_gpoly : (s.activate sl).gpoly = s.gpoly := rfl
@[simp] theorem activate_active : (s.activate sl).active = some sl := rfl
@[simp] theorem activate_acc : (s.activate sl).acc = s.acc := rfl
@[simp] theorem activate_fault : (s.activate sl).fault = s.fault := rfl
@[simp] theorem activate_cause : (s.activate sl).cause = s.cause := rfl
@[simp] theorem activate_inbox : (s.activate sl).inbox = s.inbox := rfl
@[simp] theorem activate_pending : (s.activate sl).pending = s.pending := rfl
@[simp] theorem activate_delivered : (s.activate sl).delivered = s.delivered := rfl
@[simp] theorem activate_built : (s.activate sl).built sl' = s.built sl' := by cases sl' <;> rfl
@[simp] theorem setTag_mem : (s.setTag p).mem = s.mem := rfl
@[simp] theorem setTag_builtM : (s.setTag p).builtM = s.builtM := rfl
@[simp] theorem setTag_builtL : (s.setTag p).builtL = s.builtL := rfl
@[simp] theorem setTag_builtG : (s.setTag p).builtG = s.builtG := rfl
@[simp] theorem setTag_gpoly : (s.setTag p).gpoly = p := rfl
@[simp] theorem setTag_active : (s.setTag p).active = s.active := rfl
@[simp] theorem setTag_acc : (s.setTag p).acc = s.acc := rfl
@[simp] theorem setTag_fault : (s.setTag p).fault = s.fault := rfl
@[simp] theorem setTag_cause : (s.setTag p).cause = s.cause := rfl
@[simp] theorem setTag_inbox : (s.setTag p).inbox = s.inbox := rfl
@[simp] theorem setTag_pending : (s.setTag p).pending = s.pending := rfl
@[simp] theorem setTag_delivered : (s.setTag p).delivered = s.delivered := rfl
@[simp] theorem setTag_built : (s.setTag p).built sl' = s.built sl' := by cases sl' <;> rfl
/-- Making the active slot active again changes nothing. -/
theorem activate_of_active (h : s.active = some sl) : s.activate sl = s := by
  cases s; simp_all [State.activate]
end Activate

/-- A build changes the memory and the slot's flag and nothing else (R100). -/
theorem build_eq (sl : Slot) (p : Word) (s : State) :
    build sl p s = { s with
      mem := s.mem.writeEntries sl (tableOf p) allIndexes
      builtM := decide (sl = .m) || s.builtM
      builtL := decide (sl = .l) || s.builtL
      builtG := decide (sl = .g) || s.builtG } := by
  cases sl <;> simp [build, State.setBuilt]

section Build
variable (sl : Slot) (p : Word) (s : State)
@[simp] theorem build_mem : (build sl p s).mem = s.mem.writeEntries sl (tableOf p) allIndexes := by simp [build]
@[simp] theorem build_gpoly : (build sl p s).gpoly = s.gpoly := by simp [build]
@[simp] theorem build_active : (build sl p s).active = s.active := by simp [build]
@[simp] theorem build_acc : (build sl p s).acc = s.acc := by simp [build]
@[simp] theorem build_fault : (build sl p s).fault = s.fault := by simp [build]
@[simp] theorem build_cause : (build sl p s).cause = s.cause := by simp [build]
@[simp] theorem build_inbox : (build sl p s).inbox = s.inbox := by simp [build]
@[simp] theorem build_pending : (build sl p s).pending = s.pending := by simp [build]
@[simp] theorem build_delivered : (build sl p s).delivered = s.delivered := by simp [build]
@[simp] theorem build_built (sl' : Slot) : (build sl p s).built sl' = (decide (sl' = sl) || s.built sl') := by
  simp only [build, built_setBuilt]
  rfl
end Build

/-- A built slot's flag is already set. -/
theorem setBuilt_of_built (sl : Slot) (s : State) (h : s.built sl = true) : s.setBuilt sl = s := by
  cases s; cases sl <;> simp_all [State.setBuilt, State.built]

/-- The codes of `ACTIVE` and its contents correspond one to one (R25). -/
theorem activeOfCode_activeCode (a : Option Slot) : activeOfCode (activeCode a) = a := by
  cases a with
  | none => rfl
  | some sl => cases sl <;> rfl

/-- Every 2-bit code is the code of a content of `ACTIVE` (R25). -/
theorem activeCode_activeOfCode (c : BitVec 2) : activeCode (activeOfCode c) = c := by
  revert c; decide

end Sys2Proof.Machine
end

