-- ==== Sys2Proof/Laws/Memory.lean ====
section
/-! SUPPORT. The laws of the table stores: read after write, what a write leaves alone, what a whole build leaves behind,
and that every operation keeps the canonical form. -/

namespace Sys2Proof.Machine

namespace TableStore

/-- Reading the entry just written gives the value written. -/
theorem read_write_self (t : TableStore) (i : Nat) (v : Word) : (write t i v).read i = some v := by
  induction t with
  | nil => simp [write, read]
  | cons e t ih =>
    obtain ⟨k, w⟩ := e
    simp only [write]
    split
    · simp [read]
    split
    · simp [read]
    · next h => simp [read, Ne.symm h, ih]

/-- A write leaves every other entry alone. -/
theorem read_write_other (t : TableStore) (i j : Nat) (v : Word) (h : j ≠ i) : (write t i v).read j = t.read j := by
  induction t with
  | nil => simp [write, read, Ne.symm h]
  | cons e t ih =>
    obtain ⟨k, w⟩ := e
    simp only [write]
    split
    · simp [read, Ne.symm h]
    split
    · next hk => subst hk; simp [read, Ne.symm h]
    · simp only [read, ih]

theorem risesFrom_mono (t : TableStore) {lo lo' : Nat} (hl : lo' ≤ lo) (h : risesFrom lo t = true) :
    risesFrom lo' t = true := by
  cases t with
  | nil => rfl
  | cons e t =>
    simp only [risesFrom, Bool.and_eq_true, decide_eq_true_eq] at *
    exact ⟨⟨by omega, h.1.2⟩, h.2⟩

theorem risesFrom_write (t : TableStore) (lo i : Nat) (v : Word) (hlo : lo ≤ i) (hi : i < Config.nent)
    (h : risesFrom lo t = true) : risesFrom lo (write t i v) = true := by
  induction t generalizing lo with
  | nil => simp [write, risesFrom, hlo, hi]
  | cons e t ih =>
    obtain ⟨k, w⟩ := e
    simp only [write]
    simp only [risesFrom, Bool.and_eq_true, decide_eq_true_eq] at h
    split
    · simp only [risesFrom, Bool.and_eq_true, decide_eq_true_eq]
      exact ⟨⟨hlo, hi⟩, ⟨by omega, h.1.2⟩, h.2⟩
    split
    · next hk => subst hk; simp [risesFrom, hlo, hi, h.2]
    · simp only [risesFrom, Bool.and_eq_true, decide_eq_true_eq]
      exact ⟨h.1, ih (k + 1) (by omega) h.2⟩

/-- A write at an 8-bit index keeps the canonical form. -/
theorem wf_write (t : TableStore) (i : Nat) (v : Word) (hi : i < Config.nent) (h : wf t = true) :
    wf (write t i v) = true :=
  risesFrom_write t 0 i v (Nat.zero_le i) hi h

theorem read_none_of_risesFrom (t : TableStore) (lo i : Nat) (hi : i < lo) (h : risesFrom lo t = true) :
    t.read i = none := by
  induction t generalizing lo with
  | nil => rfl
  | cons e t ih =>
    obtain ⟨k, w⟩ := e
    simp only [risesFrom, Bool.and_eq_true, decide_eq_true_eq] at h
    simp only [read]
    rw [if_neg (by omega)]
    exact ih (k + 1) (by omega) h.2

/-- Writing the value an entry already holds changes nothing: stores in canonical form with the same entries are equal. -/
theorem write_of_read (t : TableStore) (i : Nat) (v : Word) (lo : Nat) (h : risesFrom lo t = true)
    (hr : t.read i = some v) : write t i v = t := by
  induction t generalizing lo with
  | nil => simp [read] at hr
  | cons e t ih =>
    obtain ⟨k, w⟩ := e
    simp only [risesFrom, Bool.and_eq_true, decide_eq_true_eq] at h
    simp only [read] at hr
    simp only [write]
    split at hr
    · next hk => subst hk; simp_all
    · next hk =>
      have : ¬ i < k := fun hlt => by
        rw [read_none_of_risesFrom t (k + 1) i (by omega) h.2] at hr
        simp at hr
      rw [if_neg this, if_neg (Ne.symm hk), ih (k + 1) h.2 hr]

end TableStore

@[simp] theorem store_setStore (m : Memory) (sl : Slot) (t : TableStore) : (m.setStore sl t).store sl = t := by
  cases sl <;> rfl

theorem store_setStore_other (m : Memory) (sl sl' : Slot) (t : TableStore) (h : sl' ≠ sl) :
    (m.setStore sl t).store sl' = m.store sl' := by
  cases sl <;> cases sl' <;> first | rfl | exact absurd rfl h

@[simp] theorem setStore_store (m : Memory) (sl : Slot) : m.setStore sl (m.store sl) = m := by
  cases sl <;> rfl

theorem wf_iff (m : Memory) : m.wf = true ↔ ∀ sl, (m.store sl).wf = true := by
  constructor
  · intro h sl
    simp only [Memory.wf, Bool.and_eq_true] at h
    cases sl
    · exact h.1.1
    · exact h.1.2
    · exact h.2
  · intro h
    simp only [Memory.wf, Bool.and_eq_true]
    exact ⟨⟨h .m, h .l⟩, h .g⟩

/-- `TblRead` after `TblWrite` (R41, R42): the value written at the place written, the old entry everywhere else. -/
theorem read_write (m : Memory) (sl sl' : Slot) (i j : Byte) (v : Word) :
    (m.write sl i v).read sl' j = if sl' = sl ∧ j = i then some v else m.read sl' j := by
  by_cases hs : sl' = sl
  · subst hs
    by_cases hj : j = i
    · subst hj; simp [Memory.read, Memory.write, TableStore.read_write_self]
    · have : j.toNat ≠ i.toNat := fun h => hj (BitVec.eq_of_toNat_eq h)
      simp [Memory.read, Memory.write, hj, TableStore.read_write_other _ _ _ _ this]
  · simp [Memory.read, Memory.write, hs, store_setStore_other _ _ _ _ hs]

/-- `TblWrite` keeps the canonical form. -/
theorem wf_write (m : Memory) (sl : Slot) (i : Byte) (v : Word) (h : m.wf = true) : (m.write sl i v).wf = true := by
  rw [wf_iff] at *
  intro sl'
  by_cases hs : sl' = sl
  · subst hs
    simpa [Memory.write] using TableStore.wf_write _ _ v (i.isLt) (h sl')
  · rw [Memory.write, store_setStore_other _ _ _ _ hs]; exact h sl'

/-- Rewriting an entry with the value it holds changes nothing. -/
theorem write_of_read (m : Memory) (sl : Slot) (i : Byte) (v : Word) (h : m.wf = true) (hr : m.read sl i = some v) :
    m.write sl i v = m := by
  rw [wf_iff] at h
  have := TableStore.write_of_read (m.store sl) i.toNat v 0 (h sl) hr
  simp [Memory.write, this]

/-- The entries a list of writes leaves behind. -/
theorem read_writeEntries (m : Memory) (sl sl' : Slot) (tbl : CrcTable) (is : List Byte) (j : Byte) :
    (m.writeEntries sl tbl is).read sl' j = if sl' = sl ∧ j ∈ is then some (tbl j) else m.read sl' j := by
  unfold Memory.writeEntries
  induction is generalizing m with
  | nil => simp
  | cons i is ih =>
    simp only [List.foldl_cons, ih, read_write, List.mem_cons]
    by_cases hs : sl' = sl <;> by_cases hj : j ∈ is <;> by_cases hi : j = i <;> simp_all

/-- A list of writes keeps the canonical form. -/
theorem wf_writeEntries (m : Memory) (sl : Slot) (tbl : CrcTable) (is : List Byte) (h : m.wf = true) :
    (m.writeEntries sl tbl is).wf = true := by
  unfold Memory.writeEntries
  induction is generalizing m with
  | nil => exact h
  | cons i is ih => exact ih _ (wf_write m sl i _ h)

/-- Writing a table a slot already holds changes nothing. -/
theorem writeEntries_of_read (m : Memory) (sl : Slot) (tbl : CrcTable) (is : List Byte) (h : m.wf = true)
    (hr : ∀ i ∈ is, m.read sl i = some (tbl i)) : m.writeEntries sl tbl is = m := by
  unfold Memory.writeEntries
  induction is with
  | nil => rfl
  | cons i is ih =>
    rw [List.foldl_cons, write_of_read m sl i _ h (hr i (by simp))]
    exact ih fun j hj => hr j (by simp [hj])

/-- Every 8-bit index is in the list a build runs over (R45). -/
theorem mem_allIndexes (i : Byte) : i ∈ allIndexes := by
  simp only [allIndexes, List.mem_map, List.mem_range]
  exact ⟨i.toNat, i.isLt, by simp⟩

/-- What `build` leaves in the table stores: the whole table in its slot, every other slot as it was (R100). -/
theorem tblRead_build (sl sl' : Slot) (p : Word) (s : State) (i : Byte) :
    tblRead sl' i (build sl p s) = if sl' = sl then some (tableOf p i) else tblRead sl' i s := by
  simp [tblRead, read_writeEntries, mem_allIndexes]

/-- `build` keeps the canonical form of the memory. -/
theorem wf_build (sl : Slot) (p : Word) (s : State) (h : s.mem.wf = true) : (build sl p s).mem.wf = true := by
  simpa using wf_writeEntries _ _ _ _ h

/-- Building again a table the slot already holds changes nothing. -/
theorem build_of_read (sl : Slot) (p : Word) (s : State) (hw : s.mem.wf = true) (hb : s.built sl = true)
    (hr : ∀ i, tblRead sl i s = some (tableOf p i)) : build sl p s = s := by
  unfold build
  rw [writeEntries_of_read s.mem sl (tableOf p) allIndexes hw fun i _ => hr i]
  exact setBuilt_of_built sl s hb

/-- The memory after reset is in canonical form. -/
theorem wf_reset : State.reset.mem.wf = true := rfl

end Sys2Proof.Machine
end

