-- ==== Sys2Proof/Laws/Exec.lean ====
section
/-! SUPPORT. What each command can do, said once: the fields a select leaves, the table stores after it, and the inversion of
`exec` and of `acceptWord`, which proofs cite instead of unfolding them. -/

namespace Sys2Proof.Machine

section SelectNamed
variable (sl : Slot) (p : Word) (s : State)
@[simp] theorem selectNamed_active : (selectNamed sl p s).active = some sl := rfl
@[simp] theorem selectNamed_gpoly : (selectNamed sl p s).gpoly = s.gpoly := by simp only [selectNamed]; split <;> simp
@[simp] theorem selectNamed_acc : (selectNamed sl p s).acc = s.acc := by simp only [selectNamed]; split <;> simp
@[simp] theorem selectNamed_fault : (selectNamed sl p s).fault = s.fault := by simp only [selectNamed]; split <;> simp
@[simp] theorem selectNamed_cause : (selectNamed sl p s).cause = s.cause := by simp only [selectNamed]; split <;> simp
@[simp] theorem selectNamed_inbox : (selectNamed sl p s).inbox = s.inbox := by simp only [selectNamed]; split <;> simp
@[simp] theorem selectNamed_pending : (selectNamed sl p s).pending = s.pending := by
  simp only [selectNamed]; split <;> simp
@[simp] theorem selectNamed_delivered : (selectNamed sl p s).delivered = s.delivered := by
  simp only [selectNamed]; split <;> simp
/-- The slot that is selected is built; the other flags are as before (R101, R102). -/
@[simp] theorem selectNamed_built (sl' : Slot) :
    (selectNamed sl p s).built sl' = (decide (sl' = sl) || s.built sl') := by
  simp only [selectNamed, activate_built]
  split
  · next h => by_cases hs : sl' = sl <;> simp_all
  · exact build_built sl p s sl'
/-- On a hit the memory is as before. -/
theorem selectNamed_mem_hit (h : s.built sl = true) : (selectNamed sl p s).mem = s.mem := by
  simp [selectNamed, h]
theorem selectNamed_mem : (selectNamed sl p s).mem = if s.built sl then s.mem else (build sl p s).mem := by
  unfold selectNamed; split <;> rfl
/-- The table stores after a named select: on a miss the whole table in the slot, else every entry as before. -/
theorem tblRead_selectNamed (sl' : Slot) (i : Byte) :
    tblRead sl' i (selectNamed sl p s) =
      if sl' = sl ∧ s.built sl = false then some (tableOf p i) else tblRead sl' i s := by
  have hb := tblRead_build sl sl' p s i
  unfold tblRead at *
  rw [selectNamed_mem]
  cases h : s.built sl
  · simp [hb, -build_mem]
  · simp
theorem wf_selectNamed (h : s.mem.wf = true) : (selectNamed sl p s).mem.wf = true := by
  have hb := wf_build sl p s h
  rw [selectNamed_mem]
  cases s.built sl
  · simpa only [Bool.false_eq_true, if_false] using hb
  · simpa only [if_true] using h
end SelectNamed

section SelectGeneric
variable (p : Word) (s : State)
@[simp] theorem selectGeneric_active : (selectGeneric p s).active = some .g := rfl
@[simp] theorem selectGeneric_gpoly : (selectGeneric p s).gpoly = p := by
  simp only [selectGeneric]
  split
  · rfl
  · next h => simp only [genericMiss] at h; simp_all
@[simp] theorem selectGeneric_acc : (selectGeneric p s).acc = s.acc := by simp only [selectGeneric]; split <;> simp
@[simp] theorem selectGeneric_fault : (selectGeneric p s).fault = s.fault := by simp only [selectGeneric]; split <;> simp
@[simp] theorem selectGeneric_cause : (selectGeneric p s).cause = s.cause := by simp only [selectGeneric]; split <;> simp
@[simp] theorem selectGeneric_inbox : (selectGeneric p s).inbox = s.inbox := by simp only [selectGeneric]; split <;> simp
@[simp] theorem selectGeneric_pending : (selectGeneric p s).pending = s.pending := by
  simp only [selectGeneric]; split <;> simp
@[simp] theorem selectGeneric_delivered : (selectGeneric p s).delivered = s.delivered := by
  simp only [selectGeneric]; split <;> simp
/-- The generic slot is built; the other flags are as before (R103). -/
@[simp] theorem selectGeneric_built (sl : Slot) :
    (selectGeneric p s).built sl = (decide (sl = .g) || s.built sl) := by
  simp only [selectGeneric, activate_built]
  split
  · simp
  · next h =>
    simp only [genericMiss] at h
    cases sl <;> simp_all [State.built]
/-- On a hit the memory is as before. -/
theorem selectGeneric_mem_hit (h : genericMiss p s = false) : (selectGeneric p s).mem = s.mem := by
  simp [selectGeneric, h]
theorem selectGeneric_mem : (selectGeneric p s).mem = if genericMiss p s then (build .g p s).mem else s.mem := by
  unfold selectGeneric; split <;> simp
/-- The table stores after a generic select: on a miss the whole table in slot `G`, else every entry as before. -/
theorem tblRead_selectGeneric (sl : Slot) (i : Byte) :
    tblRead sl i (selectGeneric p s) =
      if sl = .g ∧ genericMiss p s = true then some (tableOf p i) else tblRead sl i s := by
  have hb := tblRead_build .g sl p s i
  unfold tblRead at *
  rw [selectGeneric_mem]
  cases h : genericMiss p s
  · simp
  · simp [hb, -build_mem]
theorem wf_selectGeneric (h : s.mem.wf = true) : (selectGeneric p s).mem.wf = true := by
  have hb := wf_build .g p s h
  rw [selectGeneric_mem]
  cases genericMiss p s
  · simpa only [Bool.false_eq_true, if_false] using h
  · simpa only [if_true] using hb
end SelectGeneric

/-- The only way `genericMiss` is false. -/
theorem genericMiss_eq_false (p : Word) (s : State) : genericMiss p s = false ↔ s.builtG = true ∧ s.gpoly = p := by
  simp [genericMiss]

/-- Everything `exec` can do when it answers a next state, guards included. -/
theorem exec_cases {i : Instr} {s t : State} (h : exec i s = .next t) :
    (i = .selm ∧ t = selectNamed .m Config.polyM s) ∨
    (i = .sell ∧ t = selectNamed .l Config.polyL s) ∨
    (∃ p, i = .selg p ∧ t = selectGeneric p s) ∨
    (∃ v, i = .setacc v ∧ t = { s with acc := v }) ∨
    (∃ b sl e, i = .byte b ∧ s.active = some sl ∧ tblRead sl (updateIndex (convOf sl s) s.acc b) s = some e ∧
      t = { s with acc := updateCombine (convOf sl s) s.acc e }) ∨
    (∃ x, i = .getcrc x ∧ t = respond (s.acc ^^^ x) s) ∨
    (∃ k sl e, i = .rdtbl k ∧ s.active = some sl ∧ tblRead sl k s = some e ∧ t = respond e s) ∨
    (∃ b, (i = .byte b ∨ i = .rdtbl b) ∧ s.active = none ∧ t = raiseFault .noTable s) := by
  cases i with
  | selm => simp_all [exec, execSelm]
  | sell => simp_all [exec, execSell]
  | selg p => simp_all [exec, execSelg]
  | setacc v => simp_all [exec, execSetacc]
  | getcrc x => simp_all [exec, execGetcrc]
  | byte b =>
    simp only [exec, execByte] at h
    split at h
    · simp_all
    · split at h
      · simp at h
      · simp_all
  | rdtbl k =>
    simp only [exec, execRdtbl] at h
    split at h
    · simp_all
    · split at h
      · simp at h
      · simp_all

/-- `BYTE` on an active table whose entry holds a value. -/
theorem execByte_of_read {b : Byte} {s : State} {sl : Slot} {e : Word} (ha : s.active = some sl)
    (hr : tblRead sl (updateIndex (convOf sl s) s.acc b) s = some e) :
    exec (.byte b) s = .next { s with acc := updateCombine (convOf sl s) s.acc e } := by
  simp [exec, execByte, ha, hr]

/-- `RDTBL` on an active table whose entry holds a value. -/
theorem execRdtbl_of_read {k : Byte} {s : State} {sl : Slot} {e : Word} (ha : s.active = some sl)
    (hr : tblRead sl k s = some e) : exec (.rdtbl k) s = .next (respond e s) := by
  simp [exec, execRdtbl, ha, hr]

/-- `BYTE` without a table (R152). -/
theorem execByte_of_none {b : Byte} {s : State} (ha : s.active = none) :
    exec (.byte b) s = .next (raiseFault .noTable s) := by
  simp only [exec, execByte, ha]

/-- `RDTBL` without a table (R152). -/
theorem execRdtbl_of_none {k : Byte} {s : State} (ha : s.active = none) :
    exec (.rdtbl k) s = .next (raiseFault .noTable s) := by
  simp only [exec, execRdtbl, ha]

/-- While a fault is recorded every word is discarded (R154). -/
theorem acceptWord_of_fault {w : CmdWord} {s : State} (h : s.fault = true) : acceptWord w s = .next s := by
  simp [acceptWord, h]

/-- An illegal word (R151). -/
theorem acceptWord_of_illegal {w : CmdWord} {s : State} {r : Reserved} (h : s.fault = false)
    (hd : decode w = .illegal r) : acceptWord w s = .next (raiseFault .illegalCommand s) := by
  simp [acceptWord, h, hd]

/-- A word that is a command (R63). -/
theorem acceptWord_of_command {w : CmdWord} {s : State} {i : Instr} (h : s.fault = false)
    (hd : decode w = .command i) : acceptWord w s = exec i s := by
  simp [acceptWord, h, hd]

/-- Everything the acceptance of a word can do. -/
theorem acceptWord_cases (w : CmdWord) (s : State) :
    (s.fault = true ∧ acceptWord w s = .next s) ∨
    (s.fault = false ∧ (∃ r, decode w = .illegal r) ∧ acceptWord w s = .next (raiseFault .illegalCommand s)) ∨
    (s.fault = false ∧ ∃ i, decode w = .command i ∧ acceptWord w s = exec i s) := by
  cases hf : s.fault
  · cases hd : decode w with
    | illegal r => exact .inr (.inl ⟨rfl, ⟨r, rfl⟩, acceptWord_of_illegal hf hd⟩)
    | command i => exact .inr (.inr ⟨rfl, i, rfl, acceptWord_of_command hf hd⟩)
  · exact .inl ⟨rfl, acceptWord_of_fault hf⟩

end Sys2Proof.Machine
end

