-- ==== Sys2Proof/Laws/Generator.lean ====
section
/-! SUPPORT. The conventions of the named polynomials, and the tables of the named slots (spec/10_state.md R27). -/

namespace Sys2Proof.Machine

/-- Bit 31 of `POLY_M` is clear. -/
@[simp] theorem classify_polyM : classify Config.polyM = .normal := by decide

/-- Bit 31 of `POLY_L` is set. -/
@[simp] theorem classify_polyL : classify Config.polyL = .reflected := by decide

/-- The table of slot `M`. -/
theorem tableOf_polyM : tableOf Config.polyM = genNormal 0x04C11DB7 := by
  rw [tableOf, classify_polyM]; rfl

/-- The table of slot `L`. -/
theorem tableOf_polyL : tableOf Config.polyL = genReflected 0xEDB88320 := by
  rw [tableOf, classify_polyL]; rfl

@[simp] theorem polyOf_m (s : State) : polyOf .m s = Config.polyM := rfl
@[simp] theorem polyOf_l (s : State) : polyOf .l s = Config.polyL := rfl
@[simp] theorem polyOf_g (s : State) : polyOf .g s = s.gpoly := rfl
@[simp] theorem convOf_m (s : State) : convOf .m s = .normal := classify_polyM
@[simp] theorem convOf_l (s : State) : convOf .l s = .reflected := classify_polyL

/-- `rsteps` composes. -/
theorem rsteps_add (p : Word) (m n : Nat) (x : Word) : rsteps p (m + n) x = rsteps p n (rsteps p m x) := by
  induction m generalizing x with
  | zero => simp [rsteps]
  | succ m ih => rw [Nat.succ_add]; exact ih _

/-- `nsteps` composes. -/
theorem nsteps_add (p : Word) (m n : Nat) (x : Word) : nsteps p (m + n) x = nsteps p n (nsteps p m x) := by
  induction m generalizing x with
  | zero => simp [nsteps]
  | succ m ih => rw [Nat.succ_add]; exact ih _

/-- One reflected step is linear: the choice bit is linear in the value. -/
theorem rstep_xor (p x y : Word) : rstep p (x ^^^ y) = rstep p x ^^^ rstep p y := by
  unfold rstep
  rw [BitVec.getLsbD_xor]
  cases x.getLsbD 0 <;> cases y.getLsbD 0 <;> simp [BitVec.ushiftRight_xor_distrib]
  all_goals ac_nf
  all_goals simp

/-- One normal step is linear. -/
theorem nstep_xor (p x y : Word) : nstep p (x ^^^ y) = nstep p x ^^^ nstep p y := by
  unfold nstep
  rw [BitVec.getLsbD_xor]
  cases x.getLsbD 31 <;> cases y.getLsbD 31 <;> simp [BitVec.shiftLeft_xor_distrib]
  all_goals ac_nf
  all_goals simp

theorem rsteps_xor (p : Word) (n : Nat) (x y : Word) : rsteps p n (x ^^^ y) = rsteps p n x ^^^ rsteps p n y := by
  induction n generalizing x y with
  | zero => rfl
  | succ n ih => simp only [rsteps, rstep_xor, ih]

theorem nsteps_xor (p : Word) (n : Nat) (x y : Word) : nsteps p n (x ^^^ y) = nsteps p n x ^^^ nsteps p n y := by
  induction n generalizing x y with
  | zero => rfl
  | succ n ih => simp only [nsteps, nstep_xor, ih]

end Sys2Proof.Machine
end

