-- ==== Sys2Proof/Laws/PerInstr.lean ====
section
/-! SUPPORT. What holds of every command as syntax, one lemma per constructor. -/

namespace Sys2Proof.Laws

namespace FitsForm

/-- The operand of the command fits its form (spec/30_encoding.md R67). -/
def Statement (i : Instr) : Prop := i.wf = true

theorem selm : Statement .selm := rfl
theorem sell : Statement .sell := rfl
theorem selg (p : Word) : Statement (.selg p) := decide_eq_true p.isLt
theorem setacc (v : Word) : Statement (.setacc v) := decide_eq_true v.isLt
theorem byte (b : Byte) : Statement (.byte b) := decide_eq_true b.isLt
theorem getcrc (x : Word) : Statement (.getcrc x) := decide_eq_true x.isLt
theorem rdtbl (i : Byte) : Statement (.rdtbl i) := decide_eq_true i.isLt

end FitsForm

namespace FieldsOfEncoding

/-- The word of the command holds its operation code and its operand in the two fields of R66, and nothing else. -/
def Statement (i : Instr) : Prop := opField (encode i) = i.mnemonic.opcode ∧ argField (encode i) = i.arg

theorem selm : Statement .selm := ⟨opField_encode _, argField_encode _⟩
theorem sell : Statement .sell := ⟨opField_encode _, argField_encode _⟩
theorem selg (p : Word) : Statement (.selg p) := ⟨opField_encode _, argField_encode _⟩
theorem setacc (v : Word) : Statement (.setacc v) := ⟨opField_encode _, argField_encode _⟩
theorem byte (b : Byte) : Statement (.byte b) := ⟨opField_encode _, argField_encode _⟩
theorem getcrc (x : Word) : Statement (.getcrc x) := ⟨opField_encode _, argField_encode _⟩
theorem rdtbl (i : Byte) : Statement (.rdtbl i) := ⟨opField_encode _, argField_encode _⟩

end FieldsOfEncoding

end Sys2Proof.Laws
end

