-- ==== Sys2Proof/Laws/Step.lean ====
section
/-! SUPPORT. The step and the sequence of words: what each does on each kind of event, and that no command reads or writes
what the host does next. -/

namespace Sys2Proof.Machine

theorem step_idle {s : State} (h : s.inbox = []) : step s = .next s := by simp [step, h, idle]

theorem step_event {s : State} {e : HostEvent} {rest : List HostEvent} (h : s.inbox = e :: rest) :
    step s = hostEvent e { s with inbox := rest } := by simp [step, h]

theorem step_command {s : State} {w : CmdWord} {rest : List HostEvent} (h : s.inbox = .command w :: rest) :
    step s = acceptWord w { s with inbox := rest } := step_event h

/-- Everything a step can do, by what the host does next. -/
theorem step_cases {s t : State} (h : step s = .next t) :
    (s.inbox = [] ∧ t = s) ∨
    (∃ w rest, s.inbox = .command w :: rest ∧ acceptWord w { s with inbox := rest } = .next t) ∨
    (∃ rest, s.inbox = .takeResponse :: rest ∧ t = deliver { s with inbox := rest }) ∨
    (∃ rest, s.inbox = .rst :: rest ∧ t = applyReset { s with inbox := rest }) := by
  cases hi : s.inbox with
  | nil => rw [step_idle hi] at h; cases h; exact .inl ⟨rfl, rfl⟩
  | cons e rest =>
    rw [step_event hi] at h
    cases e with
    | command w => exact .inr (.inl ⟨w, rest, rfl, h⟩)
    | takeResponse => cases h; exact .inr (.inr (.inl ⟨rest, rfl, rfl⟩))
    | rst => cases h; exact .inr (.inr (.inr ⟨rest, rfl, rfl⟩))

/-- The store a build writes does not depend on the inbox, nor does anything else it writes. -/
theorem build_setInbox (sl : Slot) (p : Word) (s : State) (q : List HostEvent) :
    build sl p { s with inbox := q } = { build sl p s with inbox := q } := by
  cases sl <;> simp [build_eq]

theorem selectNamed_setInbox (sl : Slot) (p : Word) (s : State) (q : List HostEvent) :
    selectNamed sl p { s with inbox := q } = { selectNamed sl p s with inbox := q } := by
  have hb : State.built { s with inbox := q } sl = s.built sl := by cases sl <;> rfl
  simp only [selectNamed, hb, build_setInbox]
  cases s.built sl <;> rfl

theorem selectGeneric_setInbox (p : Word) (s : State) (q : List HostEvent) :
    selectGeneric p { s with inbox := q } = { selectGeneric p s with inbox := q } := by
  have hb : genericMiss p { s with inbox := q } = genericMiss p s := rfl
  simp only [selectGeneric, hb, build_setInbox]
  cases genericMiss p s <;> rfl

theorem raiseFault_setInbox (k : Cause) (s : State) (q : List HostEvent) :
    raiseFault k { s with inbox := q } = { raiseFault k s with inbox := q } := by
  unfold raiseFault
  cases h : s.fault <;> simp [h]

/-- What a command does does not depend on what the host does next. -/
theorem exec_setInbox {i : Instr} {s t : State} (q : List HostEvent) (h : exec i s = .next t) :
    exec i { s with inbox := q } = .next { t with inbox := q } := by
  rcases exec_cases h with ⟨rfl, rfl⟩ | ⟨rfl, rfl⟩ | ⟨p, rfl, rfl⟩ | ⟨v, rfl, rfl⟩ | ⟨b, sl, e, rfl, ha, hr, rfl⟩ |
    ⟨x, rfl, rfl⟩ | ⟨k, sl, e, rfl, ha, hr, rfl⟩ | ⟨b, hb, ha, rfl⟩
  · exact congrArg _ (selectNamed_setInbox ..)
  · exact congrArg _ (selectNamed_setInbox ..)
  · exact congrArg _ (selectGeneric_setInbox ..)
  · rfl
  · exact execByte_of_read (s := { s with inbox := q }) ha hr
  · rfl
  · exact execRdtbl_of_read (s := { s with inbox := q }) ha hr
  · rw [← raiseFault_setInbox]
    rcases hb with rfl | rfl
    · exact execByte_of_none (s := { s with inbox := q }) ha
    · exact execRdtbl_of_none (s := { s with inbox := q }) ha

/-- The only way a command stops: an active store without a value at the index read (notes/assumptions/2.md). -/
theorem exec_stops {i : Instr} {s : State} (h : ∀ t, exec i s ≠ .next t) :
    ∃ sl k, s.active = some sl ∧ tblRead sl k s = none ∧ exec i s = .fault (.unwrittenEntry sl k) ∧
      ∀ q, exec i { s with inbox := q } = .fault (.unwrittenEntry sl k) := by
  cases i with
  | selm => exact absurd rfl (h _)
  | sell => exact absurd rfl (h _)
  | selg p => exact absurd rfl (h _)
  | setacc v => exact absurd rfl (h _)
  | getcrc x => exact absurd rfl (h _)
  | byte b =>
    cases ha : s.active with
    | none => exact absurd (execByte_of_none ha) (h _)
    | some sl =>
      cases hr : tblRead sl (updateIndex (convOf sl s) s.acc b) s with
      | some e => exact absurd (execByte_of_read ha hr) (h _)
      | none =>
        have hs : ∀ u : State, u.active = some sl → convOf sl u = convOf sl s → u.acc = s.acc →
            tblRead sl (updateIndex (convOf sl s) s.acc b) u = none →
            exec (.byte b) u = .fault (.unwrittenEntry sl (updateIndex (convOf sl s) s.acc b)) := by
          intro u h1 h2 h3 h4
          simp only [exec, execByte, h1, h2, h3, h4]
        exact ⟨sl, _, rfl, hr, hs s ha rfl rfl hr, fun q => hs _ rfl (by cases sl <;> rfl) rfl hr⟩
  | rdtbl k =>
    cases ha : s.active with
    | none => exact absurd (execRdtbl_of_none ha) (h _)
    | some sl =>
      cases hr : tblRead sl k s with
      | some e => exact absurd (execRdtbl_of_read ha hr) (h _)
      | none =>
        have hs : ∀ u : State, u.active = some sl → tblRead sl k u = none →
            exec (.rdtbl k) u = .fault (.unwrittenEntry sl k) := by
          intro u h1 h4
          simp only [exec, execRdtbl, h1, h4]
        exact ⟨sl, k, rfl, hr, hs s ha hr, fun q => hs _ rfl hr⟩

/-- No command is refused. -/
theorem exec_not_refused (i : Instr) (s : State) (r : Refusal) : exec i s ≠ .refused r := by
  intro h
  obtain ⟨_, _, _, _, hf, _⟩ := exec_stops (i := i) (s := s) (fun t ht => by simp [h] at ht)
  simp [h] at hf

/-- No command writes what the host does next. -/
theorem exec_inbox {i : Instr} {s t : State} (h : exec i s = .next t) : t.inbox = s.inbox := by
  rcases exec_cases h with ⟨_, rfl⟩ | ⟨_, rfl⟩ | ⟨_, _, rfl⟩ | ⟨_, _, rfl⟩ | ⟨_, _, _, _, _, _, rfl⟩ |
    ⟨_, _, rfl⟩ | ⟨_, _, _, _, _, _, rfl⟩ | ⟨_, _, _, rfl⟩ <;> simp

/-- No word writes what the host does next. -/
theorem acceptWord_inbox {w : CmdWord} {s t : State} (h : acceptWord w s = .next t) : t.inbox = s.inbox := by
  rcases acceptWord_cases w s with ⟨_, he⟩ | ⟨_, _, he⟩ | ⟨_, i, _, he⟩
  · rw [he] at h; cases h; rfl
  · rw [he] at h; cases h; simp
  · exact exec_inbox (he ▸ h)

/-- What a word does does not depend on what the host does next. -/
theorem acceptWord_setInbox {w : CmdWord} {s t : State} (q : List HostEvent) (h : acceptWord w s = .next t) :
    acceptWord w { s with inbox := q } = .next { t with inbox := q } := by
  rcases acceptWord_cases w s with ⟨hf, he⟩ | ⟨hf, ⟨r, hd⟩, he⟩ | ⟨hf, i, hd, he⟩
  · rw [he] at h; cases h; exact acceptWord_of_fault hf
  · rw [he] at h; cases h
    rw [acceptWord_of_illegal (s := { s with inbox := q }) hf hd, raiseFault_setInbox]
  · rw [acceptWord_of_command (s := { s with inbox := q }) hf hd]
    exact exec_setInbox q (he ▸ h)

/-- A word that stops the model stops it whatever the host does next. -/
theorem acceptWord_fault_setInbox {w : CmdWord} {s : State} {r : Fault} (q : List HostEvent)
    (h : acceptWord w s = .fault r) : acceptWord w { s with inbox := q } = .fault r := by
  rcases acceptWord_cases w s with ⟨_, he⟩ | ⟨_, _, he⟩ | ⟨hf, i, hd, he⟩
  · rw [he] at h; cases h
  · rw [he] at h; cases h
  · rw [acceptWord_of_command (s := { s with inbox := q }) hf hd]
    rw [he] at h
    obtain ⟨sl, k, _, _, h1, h2⟩ := exec_stops (i := i) (s := s) (fun t ht => by simp [h] at ht)
    rw [h2 q, ← h1, h]

/-- No word is refused. -/
theorem acceptWord_not_refused (w : CmdWord) (s : State) (r : Refusal) : acceptWord w s ≠ .refused r := by
  rcases acceptWord_cases w s with ⟨_, he⟩ | ⟨_, _, he⟩ | ⟨_, i, _, he⟩
  · simp [he]
  · simp [he]
  · rw [he]; exact exec_not_refused i s r

/-- One step of a run that goes on. -/
theorem run_next {s t : State} (n : Nat) (h : step s = .next t) :
    Sys2Proof.core.run (n + 1) s = Sys2Proof.core.run n t := by
  have h' : Sys2Proof.core.step s = .next t := h
  simp only [Host.Core.run, h']

/-- One step of a run that stops. -/
theorem run_fault {s : State} {r : Fault} (n : Nat) (h : step s = .fault r) :
    Sys2Proof.core.run (n + 1) s = .fault r := by
  have h' : Sys2Proof.core.step s = .fault r := h
  simp only [Host.Core.run, h']

/-- Running two sequences one after the other (R63). -/
theorem runWords_append (ws vs : List CmdWord) (s : State) :
    runWords (ws ++ vs) s = match runWords ws s with
      | .next t => runWords vs t
      | .fault r => .fault r
      | .refused r => .refused r := by
  induction ws generalizing s with
  | nil => rfl
  | cons w ws ih =>
    simp only [List.cons_append, runWords]
    cases acceptWord w s <;> simp [ih]

theorem runWords_cons {w : CmdWord} {s t : State} (ws : List CmdWord) (h : acceptWord w s = .next t) :
    runWords (w :: ws) s = runWords ws t := by
  simp [runWords, h]

end Sys2Proof.Machine
end

