-- ==== Sys2Proof/Tests/Slice0.lean ====
section
/-! SUPPORT. Tests: ill-formed commands that are refused, words written out from spec/30_encoding.md, values from
spec/95_test_vectors.md and from the worked examples of the rules, and for every statement with hypotheses a witness that
meets them together. -/

namespace Sys2Proof.Tests

open Sys2Proof.Machine

/-- The outcome is a next state of which the check holds. -/
def nextWith (o : Host.Outcome State Fault Refusal) (f : State → Bool) : Bool :=
  match o with
  | .next t => f t
  | .fault _ => false
  | .refused _ => false

/-! ## Well-formedness: an ill-formed term for each check -/

theorem test_wf_z_with_operand : Source.wf ⟨.selm, some 0⟩ = false ∧ Source.wf ⟨.sell, some 1⟩ = false := by decide
theorem test_wf_u32_missing :
    Source.wf ⟨.selg, none⟩ = false ∧ Source.wf ⟨.setacc, none⟩ = false ∧ Source.wf ⟨.getcrc, none⟩ = false := by decide
theorem test_wf_u32_too_big :
    Source.wf ⟨.selg, some 0x100000000⟩ = false ∧ Source.wf ⟨.selg, some 0xFFFFFFFF⟩ = true := by decide
theorem test_wf_u8_missing : Source.wf ⟨.byte, none⟩ = false ∧ Source.wf ⟨.rdtbl, none⟩ = false := by decide
theorem test_wf_u8_too_big :
    Source.wf ⟨.byte, some 256⟩ = false ∧ Source.wf ⟨.rdtbl, some 256⟩ = false ∧ Source.wf ⟨.byte, some 255⟩ = true := by
  decide

/-! ## Decoding: words written out bit by bit, `op` then `arg` (R66, R68) -/

theorem test_decode_selm : decode 0b00000001_00000000000000000000000000000000 = .command .selm := by decide
theorem test_decode_sell : decode 0b00000010_00000000000000000000000000000000 = .command .sell := by decide
theorem test_decode_selg :
    decode 0b00000011_00011110110111000110111101000001 = .command (.selg 0x1EDC6F41) := by decide
theorem test_decode_setacc :
    decode 0b00000100_10000000000000000000000000000001 = .command (.setacc 0x80000001) := by decide
theorem test_decode_byte : decode 0b00000101_00000000000000000000000000110001 = .command (.byte 0x31) := by decide
theorem test_decode_getcrc :
    decode 0b00000110_00010010001101000101011001111000 = .command (.getcrc 0x12345678) := by decide
theorem test_decode_rdtbl : decode 0b00000111_00000000000000000000000010000000 = .command (.rdtbl 0x80) := by decide

/-- spec/95_test_vectors.md section 6, the legal words. -/
theorem test_decode_vectors :
    decode 0x0300000000 = .command (.selg 0) ∧ decode 0x03FFFFFFFF = .command (.selg 0xFFFFFFFF) ∧
    decode 0x0400000000 = .command (.setacc 0) ∧ decode 0x0500000000 = .command (.byte 0) ∧
    decode 0x05000000FF = .command (.byte 0xFF) ∧ decode 0x07000000FF = .command (.rdtbl 0xFF) := by decide

/-- spec/95_test_vectors.md section 6, the illegal words. -/
theorem test_decode_illegal :
    decode 0x00FFFFFFFF = .illegal .opZero ∧ decode 0x0280000000 = .illegal .operandNotZero ∧
    decode 0x0580000031 = .illegal .operandAboveByte ∧ decode 0x0700000100 = .illegal .operandAboveByte ∧
    decode 0xFFFFFFFFFF = .illegal .opAboveSeven := by decide

theorem test_decodeTableWord :
    decodeTableWord 40 0x0500000031 = some (.byte 0x31) ∧ decodeTableWord 40 0x0500000100 = none ∧
    decodeTableWord 48 0x010500000031 = none := by decide

/-- spec/10_state.md R25: the codes of `ACTIVE`. -/
theorem test_active_codes :
    activeCode none = 0 ∧ activeCode (some .m) = 1 ∧ activeCode (some .l) = 2 ∧ activeCode (some .g) = 3 := by decide

/-! ## Generator and update: spec/95_test_vectors.md sections 2 to 4 -/

theorem test_genReflected :
    genReflected 0xEDB88320 1 = 0x77073096 ∧ genReflected 0xEDB88320 0xCE = 0x7CDCEFB7 ∧
    genReflected 0xEDB88320 254 = 0x5A05DF1B := by decide
theorem test_genNormal :
    genNormal 0x04C11DB7 2 = 0x09823B6E ∧ genNormal 0x04C11DB7 0xCE = 0x61043093 ∧
    genNormal 0x7FFFFFFF 127 = 0x7FFFFFDB := by decide
theorem test_update :
    update (genReflected 0xEDB88320) .reflected 0x7C231048 0x32 = 0xB0ACBB32 ∧
    update (genNormal 0x04C11DB7) .normal 0xA695C4AA 0x35 = 0xBD9AB747 := by decide

/-! ## One step of each command -/

/-- R101, worked example. -/
theorem test_selm :
    nextWith (step (State.reset.withFetchWord 40 0x0100000000)) (fun t =>
      t.builtM && !t.builtL && !t.builtG && t.active == some .m) = true ∧
    tblRead .m 255 (selectNamed .m Config.polyM State.reset) = some 0xB1F740B4 := by
  refine ⟨by decide, ?_⟩
  rw [tblRead_selectNamed, if_pos ⟨rfl, rfl⟩]
  decide
/-- R102, worked example, run through the whole build. -/
theorem test_sell :
    nextWith (step (State.reset.withFetchWord 40 0x0200000000)) (fun t =>
      t.builtL && !t.builtM && t.active == some .l && tblRead .l 255 t == some 0x2D02EF8D) = true := by decide +kernel
/-- R103, worked example. -/
theorem test_selg :
    nextWith (step (State.reset.withFetchWord 40 0x031EDC6F41)) (fun t =>
      t.builtG && t.gpoly == 0x1EDC6F41 && t.active == some .g) = true ∧
    tblRead .g 128 (selectGeneric 0x1EDC6F41 State.reset) = some 0xC0C1D64F := by
  refine ⟨by decide, ?_⟩
  rw [tblRead_selectGeneric, if_pos ⟨rfl, rfl⟩]
  decide
/-- spec/95_test_vectors.md P4, first line. -/
theorem test_setacc :
    nextWith (step (State.reset.withFetchWord 40 0x0400000000)) (fun t => t.acc == 0 && t.active == none) = true := by
  decide
/-- spec/95_test_vectors.md P4, third line. -/
theorem test_byte_no_table :
    nextWith (step (State.reset.withFetchWord 40 0x0500000031)) (fun t =>
      t.fault && t.cause == 2 && t.acc == 0xFFFFFFFF) = true := by decide
/-- R113: directly after reset. -/
theorem test_getcrc :
    nextWith (step (State.reset.withFetchWord 40 0x0600000000)) (fun t => t.pending == [0xFFFFFFFF]) = true := by decide
theorem test_rdtbl_no_table :
    nextWith (step (State.reset.withFetchWord 40 0x0700000080)) (fun t => t.cause == 2 && t.pending == []) = true := by
  decide
/-- spec/95_test_vectors.md P5, second line and variant. -/
theorem test_illegal_words :
    nextWith (step (State.reset.withFetchWord 40 0x0500000131)) (fun t => t.fault && t.cause == 1) = true ∧
    nextWith (step (State.reset.withFetchWord 40 0x0000000000)) (fun t => t.fault && t.cause == 1) = true := by decide

/-! ## Pseudo-instructions and the assembler (R73, R74) -/

theorem test_expand_hacker32 :
    (Pseudo.hacker32 [0x31] none none none).words = [0x03EDB88320, 0x04FFFFFFFF, 0x0500000031, 0x0600000000] := by decide
theorem test_expand_table32 : (Pseudo.table32 0xEDB88320).words.take 3 = [0x0200000000, 0x0700000000, 0x0700000001] := by
  decide +kernel
theorem test_assemble :
    assembleLine "BYTE 0x31 ; one byte".toList = .command (.byte 0x31) ∧
    assembleLine "SELG 0x1EDC6F41".toList = .command (.selg 0x1EDC6F41) ∧
    assembleLine "SELM".toList = .command .selm ∧
    assembleLine "GETCRC 0x0".toList = .command (.getcrc 0) := by decide +kernel
theorem test_assemble_rejects :
    assembleLine "BYTE 0x100".toList = .rejected .operandDoesNotFit ∧
    assembleLine "SELM 0x0".toList = .rejected .operandDoesNotFit ∧
    assembleLine "SETACC 0x100000000".toList = .rejected .badLiteral ∧
    assembleLine "SETACC 12".toList = .rejected .badLiteral ∧
    assembleLine "byte 0x31".toList = .rejected .unknownMnemonic := by decide +kernel
/-- Lines as spec/43_variant_facade.md R138 and spec/95_test_vectors.md P7 write them. -/
theorem test_assemble_pseudo :
    assembleLine "MPEG2 \"12\", 0x00000000".toList = .sequence (.mpeg2 [0x31, 0x32] (some 0)) ∧
    assembleLine "CRC32 \"\" ; nothing".toList = .sequence (.crc32 [] none) ∧
    assembleLine "HACKER32 \"a b\", poly=0x80000000".toList =
      .sequence (.hacker32 [0x61, 0x20, 0x62] (some 0x80000000) none none) ∧
    assembleLine "TABLE32 0xEDB88320".toList = .sequence (.table32 0xEDB88320) ∧
    assembleLine "HACKER32 \"a\", poly=0x1, poly=0x2".toList = .rejected .badPseudoOperand ∧
    assembleLine "FOLD \"a\", 0x1".toList = .rejected .badPseudoOperand := by decide +kernel
theorem test_assemble_program :
    assembleProgram ["; start".toList, "SELL".toList, "FOLD \"1\"".toList, "GETCRC 0xFFFFFFFF".toList] =
      .ok [.sell, .byte 0x31, .getcrc 0xFFFFFFFF] := by rfl
theorem test_print :
    printCommand (.byte 0x31) = "BYTE 0x31".toList ∧
    printListing (.byte 0x31) = "05 00000031  BYTE 0x31".toList := by decide +kernel

/-! ## States for the witnesses -/

/-- After `SELM`, `SELL` or `SELG p` from reset. -/
def afterSelm : State := selectNamed .m Config.polyM State.reset
def afterSell : State := selectNamed .l Config.polyL State.reset
def afterSelg (p : Word) : State := selectGeneric p State.reset
/-- After `SELM` and then `SELL`: another cache state with the same table active. -/
def afterBoth : State := selectNamed .l Config.polyL afterSelm
/-- A block that raised `NoTable`. -/
def faulted : State := raiseFault .noTable State.reset
/-- A state with the host about to do the given things. -/
def withHost (es : List HostEvent) (s : State) : State := { s with inbox := es }

theorem read_afterSell (i : Byte) : tblRead .l i afterSell = some (genReflected 0xEDB88320 i) := by
  rw [afterSell, tblRead_selectNamed, if_pos ⟨rfl, rfl⟩, tableOf_polyL]
theorem read_afterSelm (i : Byte) : tblRead .m i afterSelm = some (genNormal 0x04C11DB7 i) := by
  rw [afterSelm, tblRead_selectNamed, if_pos ⟨rfl, rfl⟩, tableOf_polyM]
theorem read_afterSelg (p : Word) (i : Byte) : tblRead .g i (afterSelg p) = some (tableOf p i) := by
  rw [afterSelg, tblRead_selectGeneric, if_pos ⟨rfl, rfl⟩]

theorem afterSelm_inv : BlockInvariant afterSelm where
  cache := ⟨fun _ => read_afterSelm, nofun, nofun, fun sl h => by cases h; rfl⟩
  cause := ⟨fun _ => rfl, nofun⟩
  memory := wf_selectNamed _ _ _ wf_reset
theorem afterSell_inv : BlockInvariant afterSell where
  cache := ⟨nofun, fun _ => read_afterSell, nofun, fun sl h => by cases h; rfl⟩
  cause := ⟨fun _ => rfl, nofun⟩
  memory := wf_selectNamed _ _ _ wf_reset
theorem afterSelg_inv (p : Word) : BlockInvariant (afterSelg p) where
  cache := ⟨nofun, nofun, fun _ => read_afterSelg p, fun sl h => by cases h; rfl⟩
  cause := ⟨fun _ => rfl, nofun⟩
  memory := wf_selectGeneric _ _ wf_reset
theorem afterBoth_inv : BlockInvariant afterBoth where
  cache := ⟨fun _ i => by
      rw [afterBoth, tblRead_selectNamed, if_neg (by decide)]; exact read_afterSelm i,
    fun _ i => by rw [afterBoth, tblRead_selectNamed, if_pos ⟨rfl, rfl⟩, tableOf_polyL]; rfl,
    nofun, fun sl h => by cases h; rfl⟩
  cause := ⟨fun _ => rfl, nofun⟩
  memory := wf_selectNamed _ _ _ (wf_selectNamed _ _ _ wf_reset)
theorem withHost_inv (es : List HostEvent) {s : State} (h : BlockInvariant s) : BlockInvariant (withHost es s) :=
  ⟨⟨h.cache.tableM, h.cache.tableL, h.cache.tableG, h.cache.activeBuilt⟩, h.cause, h.memory⟩

/-- R112, worked example under the reflected table. -/
theorem test_byte : exec (.byte 0x31) afterSell = .next { afterSell with acc := 0x7C231048 } := by
  rw [execByte_of_read (sl := .l) rfl (read_afterSell _)]
  exact congrArg (fun a => Host.Outcome.next { afterSell with acc := a })
    (by decide : updateCombine .reflected 0xFFFFFFFF (genReflected 0xEDB88320 (updateIndex .reflected 0xFFFFFFFF 0x31)) =
      0x7C231048)
/-- R114, worked example. -/
theorem test_rdtbl : exec (.rdtbl 0x80) afterSell = .next { afterSell with pending := [0xEDB88320] } := by
  rw [execRdtbl_of_read (sl := .l) rfl (read_afterSell _)]
  exact congrArg (fun a => Host.Outcome.next { afterSell with pending := [a] })
    (by decide : genReflected 0xEDB88320 0x80 = 0xEDB88320)

/-! ## Witnesses: for each statement with hypotheses, states and operands that meet all of them together -/

theorem accept_encode {i : Instr} {s t : State} (hd : decode (encode i) = .command i) (hf : s.fault = false)
    (he : exec i s = .next t) : acceptWord (encode i) s = .next t := by
  rw [acceptWord_of_command hf hd, he]

theorem witness_DecodeOfEncodeIsTheCommand :
    Instr.selm.wf = true ∧ Instr.sell.wf = true ∧ (Instr.selg 0xFFFFFFFF).wf = true ∧ (Instr.setacc 0).wf = true ∧
    (Instr.byte 0xFF).wf = true ∧ (Instr.getcrc 0xFFFFFFFF).wf = true ∧ (Instr.rdtbl 0).wf = true := by decide

theorem witness_EncodeOfDecodeIsTheWord : decode 0x07000000FF = .command (.rdtbl 0xFF) := by decide

theorem witness_OpcodeRowsSelectTheirCommands :
    (0x05000000FF : CmdWord) &&& Mnemonic.byte.rowMask = Mnemonic.byte.rowMatch ∧
    (0x03FFFFFFFF : CmdWord) &&& Mnemonic.selg.rowMask = Mnemonic.selg.rowMatch := by decide

/-- One word of each class of R69, at a boundary value. -/
theorem witness_ReservedWordsAreIllegalCommands :
    (∀ m : Mnemonic, (0 : CmdWord) &&& m.rowMask ≠ m.rowMatch) ∧
    decode 0x0000000001 = .illegal .opZero ∧ decode 0x0800000000 = .illegal .opAboveSeven ∧
    decode 0x0100000001 = .illegal .operandNotZero ∧ decode 0x0700000100 = .illegal .operandAboveByte ∧
    State.reset.fault = false := ⟨fun m => by cases m <;> decide, by decide, by decide, by decide, by decide, rfl⟩

/-- A legal operand of each form at its upper boundary, and the first that is not legal. -/
theorem witness_OperandFormsReadAsSpecified :
    (opField 0x03FFFFFFFF = Mnemonic.selg.opcode ∧ argField 0x03FFFFFFFF = 0xFFFFFFFF ∧
      Mnemonic.selg.form.legal 0xFFFFFFFF = true) ∧
    (opField 0x05000000FF = Mnemonic.byte.opcode ∧ Mnemonic.byte.form.legal 0xFF = true) ∧
    (opField 0x0500000100 = Mnemonic.byte.opcode ∧ Mnemonic.byte.form.legal 0x100 = false) ∧
    (opField 0x0100000001 = Mnemonic.selm.opcode ∧ Mnemonic.selm.form.legal 1 = false) := by decide

theorem witness_EveryStepKeepsTheInvariant :
    ∃ s t, BlockInvariant s ∧ step s = .next t ∧ s.inbox = [.command 0x0600000000, .rst] := by
  have h (u : State) (hf : u.fault = false) : step (withHost [.command 0x0600000000, .rst] u) =
      .next (respond (u.acc ^^^ 0) (withHost [.rst] u)) := by
    exact (step_command rfl).trans (acceptWord_of_command (s := withHost [.rst] u) (i := .getcrc 0) hf (by decide))
  exact ⟨_, _, withHost_inv _ afterSell_inv, h afterSell rfl, rfl⟩

theorem witness_StepRunsTheDecodedCommand :
    (withHost [.command 0x0500000031] afterSell).inbox = .command 0x0500000031 :: [] ∧
    (withHost [.command 0x0500000031] afterSell).fault = false ∧
    decode 0x0500000031 = .command (.byte 0x31) ∧ (Instr.byte 0x31).wf = true := by
  exact ⟨rfl, rfl, by decide, by decide⟩

theorem witness_StepsRunTheCommandSequence :
    runWords [0x04FFFFFFFF, 0x0600000000] State.reset =
      .next { State.reset with pending := [0xFFFFFFFF] } := by rfl

theorem witness_BlockActsOnlyOnTheHost :
    State.reset.inbox = [] ∧
    (∃ s : State, s.inbox = .takeResponse :: [] ∧ s.pending = 0x31 :: [0x32]) ∧
    (∃ s : State, s.inbox = .takeResponse :: [] ∧ s.pending = []) :=
  ⟨rfl, ⟨{ State.reset with inbox := [.takeResponse], pending := [0x31, 0x32] }, rfl, rfl⟩,
    ⟨withHost [.takeResponse] State.reset, rfl, rfl⟩⟩

theorem witness_ResetPinRestoresTheResetState :
    ∃ s : State, s.inbox = .rst :: [.command 0x0200000000] ∧ s.fault = true ∧ s.builtL = true :=
  ⟨{ afterSell with inbox := [.rst, .command 0x0200000000], fault := true, cause := 1 }, rfl, rfl, rfl⟩

theorem witness_TheBlockNeverStops :
    BlockInvariant (withHost [.command 0x0500000031, .takeResponse, .rst] afterSell) := withHost_inv _ afterSell_inv

theorem witness_IllegalWordRaisesIllegalCommand :
    ∃ s t, s.inbox = .command 0x0500000100 :: [] ∧ s.fault = false ∧ decode 0x0500000100 = .illegal .operandAboveByte ∧
      step s = .next t ∧ t.cause = 1 :=
  ⟨withHost [.command 0x0500000100] State.reset, _, rfl, rfl, by decide, rfl, rfl⟩

theorem witness_NoTableIsRaisedOnlyWithoutATable :
    (State.reset.active = none ∧ State.reset.fault = false) ∧
    (∃ t, exec (.rdtbl 0) State.reset = .next t ∧ State.reset.fault = false ∧ t.fault = true) ∧
    (∃ t, exec (.setacc 0) afterSell = .next t ∧ afterSell.active ≠ none) :=
  ⟨⟨rfl, rfl⟩, ⟨_, rfl, rfl, rfl⟩, ⟨_, rfl, nofun⟩⟩

/-- Both causes. -/
theorem witness_FaultEntryChangesNothingElse :
    (∃ s t, step s = .next t ∧ s.fault = false ∧ t.fault = true ∧ t.cause = 1) ∧
    (∃ s t, step s = .next t ∧ s.fault = false ∧ t.fault = true ∧ t.cause = 2) :=
  ⟨⟨withHost [.command 0xFFFFFFFFFF] State.reset, _, rfl, rfl, rfl, rfl⟩,
    ⟨withHost [.command 0x0500000031] State.reset, _, rfl, rfl, rfl, rfl⟩⟩

/-- A legal and an illegal word. -/
theorem witness_FaultedBlockDiscardsEveryWord :
    (∃ t, step (withHost [.command 0] faulted) = .next t ∧ (withHost [.command 0] faulted).fault = true ∧
      ∀ rest, (withHost [.command 0] faulted).inbox ≠ .rst :: rest) ∧
    ((withHost [.command 0x0200000000] faulted).inbox = .command 0x0200000000 :: [] ∧
      (withHost [.command 0x0200000000] faulted).fault = true) ∧
    ((withHost [.command 0] faulted).inbox = .command 0 :: [] ∧ (withHost [.command 0] faulted).fault = true) :=
  ⟨⟨_, rfl, rfl, fun _ => nofun⟩, ⟨rfl, rfl⟩, ⟨rfl, rfl⟩⟩

theorem witness_DecodeCheckComesFirst :
    State.reset.active = none ∧ State.reset.fault = false ∧ decode 0x0700000100 = .illegal .operandAboveByte := by decide

theorem witness_OnlyResetClearsAFault :
    (∃ s t, step s = .next t ∧ s.fault = true ∧ t.fault = false) ∧
    (∃ s t, step s = .next t ∧ s.fault = true ∧ t.fault = true) :=
  ⟨⟨withHost [.rst] faulted, _, rfl, rfl, rfl⟩, ⟨withHost [.command 0] faulted, _, rfl, rfl, rfl⟩⟩

/-- The boundary values of `k`, from spec/95_test_vectors.md section 2. -/
theorem witness_PolynomialStandsInItsTable :
    genNormal 0x04C11DB7 (BitVec.ofNat 8 (2 ^ 0)) = 0x04C11DB7 ∧ genNormal 0x04C11DB7 (BitVec.ofNat 8 (2 ^ 7)) = 0x690CE0EE ∧
    genReflected 0xEDB88320 (BitVec.ofNat 8 (2 ^ (7 - 0))) = 0xEDB88320 ∧
    genReflected 0xEDB88320 (BitVec.ofNat 8 (2 ^ (7 - 7))) = 0x77073096 := by decide

theorem witness_EqualTablesWithinAndAcrossConventions :
    genTable 0x04C11DB7 .normal = genTable 0x04C11DB7 .normal ∧
    classify (0x01000000 + (0xFFFFFF : BitVec 24).setWidth 32) = .normal := ⟨rfl, by decide⟩

theorem witness_BuildWritesTheWholeTable : Slot.m ≠ Slot.g ∧ Slot.l ≠ Slot.g := by decide

/-- Miss, hit, and hit with the slot already active. -/
theorem witness_SelmSelectsTheNormalNamedTable :
    State.reset.builtM = false ∧ afterBoth.builtM = true ∧ (afterSelm.builtM = true ∧ afterSelm.active = some .m) :=
  ⟨rfl, rfl, rfl, rfl⟩

theorem witness_SellSelectsTheReflectedNamedTable :
    State.reset.builtL = false ∧ afterSell.builtL = true ∧ (afterSell.builtL = true ∧ afterSell.active = some .l) :=
  ⟨rfl, rfl, rfl, rfl⟩

/-- Unbuilt; built from another polynomial; built from this one, and active. -/
theorem witness_SelgSelectsTheGenericTable :
    State.reset.builtG = false ∧ (afterSelg 0x80000000).gpoly ≠ 0x01000000 ∧
    ((afterSelg 0).builtG = true ∧ (afterSelg 0).gpoly = 0 ∧ (afterSelg 0).active = some .g) := by
  refine ⟨rfl, ?_, rfl, ?_, rfl⟩ <;> rw [afterSelg, selectGeneric_gpoly]
  decide

theorem witness_SelectEndsWithItsTable :
    ∃ t, CacheInvariant afterSell ∧ exec (.selg 0x1EDC6F41) afterSell = .next t := ⟨_, afterSell_inv.cache, rfl⟩

theorem witness_AlwaysRebuildingChangesNothing : BlockInvariant afterBoth ∧ afterBoth.builtM = true :=
  ⟨afterBoth_inv, rfl⟩

theorem witness_GenericPathIgnoresTheNamedSlots :
    ∃ t u, exec (.selg Config.polyM) afterSelm = .next t ∧
      exec (.selg Config.polyM) { afterSelm with
        mem := { tblM := [], tblL := [], tblG := afterSelm.mem.tblG }, builtM := false, builtL := false } = .next u :=
  ⟨_, _, rfl, rfl⟩

/-- The tag holds 0 although the slot is unbuilt. -/
theorem witness_PolynomialZeroIsAPolynomial : ∃ s : State, s.builtG = false ∧ s.gpoly = 0 :=
  ⟨{ State.reset with gpoly := 0 }, rfl, rfl⟩

theorem witness_GenericSlotKeepsNoStaleEntry :
    ∃ t, (0x1EDC6F41 : Word) ≠ 0x82F63B78 ∧ State.reset.fault = false ∧
      runWords ([Instr.selg 0x1EDC6F41, .selg 0x82F63B78, .selg 0x1EDC6F41].map encode) State.reset = .next t := by
  have h1 (s : State) (hf : s.fault = false) (p : Word) (hd : decode (encode (.selg p)) = .command (.selg p))
      (ws : List CmdWord) : runWords (encode (.selg p) :: ws) s = runWords ws (selectGeneric p s) :=
    runWords_cons _ (accept_encode hd hf rfl)
  refine ⟨selectGeneric 0x1EDC6F41 (selectGeneric 0x82F63B78 (selectGeneric 0x1EDC6F41 State.reset)), by decide, rfl, ?_⟩
  simp only [List.map_cons, List.map_nil]
  rw [h1 _ rfl _ (by decide), h1 _ (by rw [selectGeneric_fault]; rfl) _ (by decide),
    h1 _ (by rw [selectGeneric_fault, selectGeneric_fault]; rfl) _ (by decide), runWords]

/-- Every clause: both conventions, polynomial 0, an index of 0 under each convention, the two worked examples, and no
table. -/
theorem witness_ByteIsOneUpdateOfTheActiveTable :
    (CacheInvariant afterSell ∧ afterSell.active = some .l ∧ convOf .l afterSell = .reflected ∧
      afterSell.acc = 0xFFFFFFFF ∧ afterSell.acc.extractLsb' 0 8 = 0xFF) ∧
    (CacheInvariant afterSelm ∧ afterSelm.active = some .m ∧ convOf .m afterSelm = .normal ∧
      afterSelm.acc = 0xFFFFFFFF ∧ afterSelm.acc.extractLsb' 24 8 = 0xFF) ∧
    (CacheInvariant (afterSelg 0) ∧ (afterSelg 0).active = some .g ∧ polyOf .g (afterSelg 0) = 0) ∧
    (State.reset.active = none ∧ State.reset.fault = false) :=
  ⟨⟨afterSell_inv.cache, rfl, convOf_l _, rfl, by rw [show afterSell.acc = 0xFFFFFFFF from rfl]; decide⟩,
    ⟨afterSelm_inv.cache, rfl, convOf_m _, rfl, by rw [show afterSelm.acc = 0xFFFFFFFF from rfl]; decide⟩,
    ⟨(afterSelg_inv 0).cache, rfl, by rw [polyOf_g, afterSelg, selectGeneric_gpoly]⟩, ⟨rfl, rfl⟩⟩

theorem witness_GetcrcRespondsTheMaskedAccumulator : ∃ s : State, s.acc = 0x340BC6D9 :=
  ⟨{ State.reset with acc := 0x340BC6D9 }, rfl⟩

theorem witness_RdtblRespondsOneEntry :
    (CacheInvariant (afterSelg 0xFFFFFFFF) ∧ (afterSelg 0xFFFFFFFF).active = some .g) ∧
    (State.reset.active = none ∧ State.reset.fault = false) := ⟨⟨(afterSelg_inv _).cache, rfl⟩, ⟨rfl, rfl⟩⟩

/-- A response, a fault, and a command that never responds. -/
theorem witness_ExactlyGetcrcAndRdtblRespond :
    (∃ t, State.reset.fault = false ∧ exec (.getcrc 0) State.reset = .next t ∧ t.fault = false) ∧
    (∃ t, State.reset.fault = false ∧ exec (.rdtbl 0) State.reset = .next t ∧ t.fault = true) ∧
    (∃ t, State.reset.fault = false ∧ exec .selm State.reset = .next t) :=
  ⟨⟨_, rfl, rfl, rfl⟩, ⟨_, rfl, rfl, rfl⟩, ⟨_, rfl, rfl⟩⟩

theorem witness_EngineCommandsFrame :
    (∃ t, exec (.setacc 0) State.reset = .next t ∧ t.fault = State.reset.fault) ∧
    (∃ t, exec (.byte 0x31) afterSell = .next t ∧ t.fault = afterSell.fault) ∧
    (∃ t, exec (.getcrc 0) State.reset = .next t ∧ t.fault = State.reset.fault) ∧
    (∃ t, exec (.rdtbl 0x80) afterSell = .next t ∧ t.fault = afterSell.fault) ∧
    (∃ t, exec (.byte 0x31) State.reset = .next t ∧ t.fault ≠ State.reset.fault) :=
  ⟨⟨_, rfl, rfl⟩, ⟨_, test_byte, rfl⟩, ⟨_, rfl, rfl⟩, ⟨_, test_rdtbl, rfl⟩, ⟨_, rfl, nofun⟩⟩

/-- A miss of each select, and a hit. -/
theorem witness_SelectCommandsFrame :
    (∃ t, exec .selm State.reset = .next t) ∧ (∃ t, exec .sell State.reset = .next t) ∧
    (∃ t, exec (.selg 0) State.reset = .next t) ∧ (∃ t, exec .selm afterBoth = .next t ∧ isMiss .selm afterBoth = false) :=
  ⟨⟨_, rfl⟩, ⟨_, rfl⟩, ⟨_, rfl⟩, ⟨_, rfl, rfl⟩⟩

theorem witness_SelectingTheActiveTableAgainIsHarmless :
    (CacheInvariant afterSelm ∧ afterSelm.active = some .m) ∧ (CacheInvariant afterSell ∧ afterSell.active = some .l) ∧
    (CacheInvariant (afterSelg 0) ∧ (afterSelg 0).active = some .g) :=
  ⟨⟨afterSelm_inv.cache, rfl⟩, ⟨afterSell_inv.cache, rfl⟩, ⟨(afterSelg_inv 0).cache, rfl⟩⟩

theorem witness_FoldSequenceFoldsTheString :
    BlockInvariant (afterSelg 0x04C11DB7) ∧ (afterSelg 0x04C11DB7).fault = false ∧
      (afterSelg 0x04C11DB7).active = some .g := ⟨afterSelg_inv _, rfl, rfl⟩

/-- A named slot of each convention, and the generic one. -/
theorem witness_SuspendedFoldResumes :
    (BlockInvariant afterSelm ∧ afterSelm.fault = false ∧ afterSelm.active = some .m) ∧
    (BlockInvariant afterSell ∧ afterSell.fault = false ∧ afterSell.active = some .l) ∧
    (BlockInvariant (afterSelg 0x01000000) ∧ (afterSelg 0x01000000).fault = false ∧
      (afterSelg 0x01000000).active = some .g) :=
  ⟨⟨afterSelm_inv, rfl, rfl⟩, ⟨afterSell_inv, rfl, rfl⟩, ⟨afterSelg_inv _, rfl, rfl⟩⟩

/-- What the façade sequences assume of the state. -/
theorem witness_facade : BlockInvariant afterBoth ∧ afterBoth.fault = false := ⟨afterBoth_inv, rfl⟩

theorem witness_Mpeg2SequenceRespondsItsChecksum : BlockInvariant afterBoth ∧ afterBoth.fault = false := witness_facade

/-- A checksum sequence of the empty string goes through from every fault-free state. -/
theorem empty_checksum {sel : Instr} {s t : State} (a x : Word) (hd : decode (encode sel) = .command sel)
    (hf : s.fault = false) (he : exec sel s = .next t) (ht : t.fault = false)
    (ha : decode (encode (.setacc a)) = .command (.setacc a)) (hx : decode (encode (.getcrc x)) = .command (.getcrc x)) :
    runWords ((checksumCommands sel a [] x).map encode) s = .next (respond (a ^^^ x) { t with acc := a }) := by
  show runWords [encode sel, encode (.setacc a), encode (.getcrc x)] s = _
  rw [runWords_cons _ (accept_encode hd hf he), runWords_cons (t := { t with acc := a }) _ (accept_encode ha ht rfl),
    runWords_cons _ (accept_encode (s := { t with acc := a }) hx ht rfl), runWords]

theorem witness_Crc32SequenceRespondsItsChecksum :
    ∃ t, BlockInvariant afterSell ∧ afterSell.fault = false ∧ runWords (Pseudo.crc32 [] none).words afterSell = .next t :=
  ⟨_, afterSell_inv, rfl, empty_checksum 0xFFFFFFFF 0xFFFFFFFF (by decide) rfl rfl
    (by rw [selectNamed_fault]; rfl) (by decide) (by decide)⟩

/-- Each select of the rule. -/
theorem witness_Table32SequenceRespondsTheTable :
    (BlockInvariant afterBoth ∧ afterBoth.fault = false) ∧
    ((0x1EDC6F41 : Word) ≠ 0x04C11DB7 ∧ (0x1EDC6F41 : Word) ≠ 0xEDB88320) := ⟨witness_facade, by decide, by decide⟩

theorem witness_Hacker32SequenceRespondsItsChecksum :
    (BlockInvariant afterBoth ∧ afterBoth.fault = false ∧ (0xEDB88320 : Word) = (none : Option Word).getD 0xEDB88320) ∧
    4 ≤ ([1, 2, 3, 4] : List Byte).length := ⟨⟨afterBoth_inv, rfl, rfl⟩, Nat.le_refl 4⟩

theorem witness_PresetsAgreeWithTheGenericOperation :
    ∃ t u, BlockInvariant afterSell ∧ afterSell.fault = false ∧
      runWords (Pseudo.crc32 [] none).words afterSell = .next t ∧
      runWords (Pseudo.hacker32 [] (some 0xEDB88320) none (some 0xFFFFFFFF)).words afterSell = .next u := by
  obtain ⟨t, hi, hf, ht⟩ := witness_Crc32SequenceRespondsItsChecksum
  exact ⟨t, _, hi, hf, ht, empty_checksum (sel := .selg 0xEDB88320) 0xFFFFFFFF 0xFFFFFFFF (by decide) rfl rfl
    (by rw [selectGeneric_fault]; rfl) (by decide) (by decide)⟩

/-- The two cache states differ: `M` is built in one of them only. -/
theorem witness_CacheStateIsInvisibleToTheHost :
    BlockInvariant afterSell ∧ BlockInvariant afterBoth ∧ SameToHost afterSell afterBoth ∧
      afterSell.builtM ≠ afterBoth.builtM := by
  have hb : afterBoth = selectNamed .l Config.polyL (selectNamed .m Config.polyM State.reset) := rfl
  have hl : afterSell = selectNamed .l Config.polyL State.reset := rfl
  refine ⟨afterSell_inv, afterBoth_inv, ?_, ?_⟩
  · rw [hb, hl]
    constructor <;> simp
  · rw [show afterSell.builtM = false from rfl, show afterBoth.builtM = true from rfl]
    exact nofun

/-- The two states differ in the unset tag and in an unbuilt store. -/
theorem witness_UnspecifiedElementsAreNeverRead :
    ∃ s t : State, (∀ sl, s.active = some sl → s.built sl = true) ∧ AgreeWhereSpecified s t ∧ s.gpoly ≠ t.gpoly ∧
      s.mem.tblG ≠ t.mem.tblG :=
  let s : State := { State.reset with gpoly := 0 }
  let t : State := { State.reset with gpoly := 1, mem := ⟨[], [], [(0, 0)]⟩ }
  ⟨s, t, nofun, ⟨fun sl => by cases sl <;> rfl, fun sl _ h => by cases sl <;> exact absurd h Bool.false_ne_true,
    nofun, rfl, rfl, rfl, rfl, rfl, rfl, rfl⟩, by decide, by decide⟩

/-- Each clause at a boundary: the largest literals that fit, one digit too many, no digit, an operand too big, an operand
where none is taken, and none where one is. -/
theorem witness_AssemblerNeverTruncates :
    ("FFFFFFFF".toList.map hexDigitValue = [15, 15, 15, 15, 15, 15, 15, 15].map some ∧ Mnemonic.selg.form ≠ .z ∧
      "FFFFFFFF".toList.length = 8) ∧
    ("000000031".toList.map hexDigitValue = [0, 0, 0, 0, 0, 0, 0, 3, 1].map some ∧ 8 < "000000031".toList.length) ∧
    ("FF".toList.map hexDigitValue = [15, 15].map some ∧ Mnemonic.byte.form ≠ .z ∧ Nat.ofDigits 16 [15, 15] < 256) ∧
    ("100".toList.map hexDigitValue = [1, 0, 0].map some ∧ Mnemonic.byte.form = .u8 ∧ 256 ≤ Nat.ofDigits 16 [0, 0, 1]) ∧
    ("".toList.map hexDigitValue = [].map some ∧ "".toList.length = 0) ∧
    (Mnemonic.selm.form = .z ∧ Mnemonic.rdtbl.form ≠ .z) ∧
    (Source.wf ⟨.byte, some 255⟩ = true ∧ Source.wf ⟨.byte, some 256⟩ = false) := by decide +kernel

theorem witness_AssemblerExpandsPseudoInstructions :
    assembleLine "FOLD \"1\"".toList = .sequence (.fold [0x31]) ∧ assembleProgram ["SELL".toList] = .ok [.sell] :=
  ⟨by decide +kernel, rfl⟩

end Sys2Proof.Tests
end

section
/-! PROOFS. What the decoder makes of each opcode and operand (spec/30_encoding.md R67 to R69), and the obligations on
the operand forms (O5) and the reserved words (O6). -/

namespace Sys2Proof

/-- Every opcode is that of one of the seven operations, or is one of the two reserved ranges of R69. -/
theorem opcode_cases (op : BitVec 8) : (∃ m : Mnemonic, op = m.opcode) ∨ op = 0 ∨ 8 ≤ op.toNat := by
  by_cases h8 : 8 ≤ op.toNat
  · exact .inr (.inr h8)
  · have below : ∀ n < 8, (∃ m : Mnemonic, BitVec.ofNat 8 n = m.opcode) ∨ BitVec.ofNat 8 n = 0 := by
      intro n hn
      interval_cases n
      · exact .inr rfl
      · exact .inl ⟨.selm, rfl⟩
      · exact .inl ⟨.sell, rfl⟩
      · exact .inl ⟨.selg, rfl⟩
      · exact .inl ⟨.setacc, rfl⟩
      · exact .inl ⟨.byte, rfl⟩
      · exact .inl ⟨.getcrc, rfl⟩
      · exact .inl ⟨.rdtbl, rfl⟩
    have := below op.toNat (by omega)
    rw [BitVec.ofNat_toNat, BitVec.setWidth_eq] at this
    exact this.imp_right .inl

/-- The command of an operation whose operand field is `a`. -/
def Mnemonic.withArg (a : Word) : Mnemonic → Instr
  | .selm => .selm
  | .sell => .sell
  | .selg => .selg a
  | .setacc => .setacc a
  | .byte => .byte (argByte a)
  | .getcrc => .getcrc a
  | .rdtbl => .rdtbl (argByte a)

@[simp] theorem mnemonic_withArg (m : Mnemonic) (a : Word) : (m.withArg a).mnemonic = m := by
  cases m <;> rfl

/-- A legal operand field is the operand field of the command it gives: no bit of it is dropped (R67). -/
theorem arg_withArg {m : Mnemonic} {a : Word} (h : m.form.legal a = true) : (m.withArg a).arg = a := by
  cases m with
  | selm | sell => exact ((legal_z a).mp h).symm
  | selg | setacc | getcrc => rfl
  | byte | rdtbl => exact (legal_u8_iff a).mp h

/-- A word of an operation whose operand is legal decodes to that operation's command. -/
theorem decode_of_legal {w : CmdWord} {m : Mnemonic} (hop : opField w = m.opcode)
    (hl : m.form.legal (argField w) = true) : decode w = .command (m.withArg (argField w)) := by
  cases m <;> simp_all [decode, Mnemonic.opcode, Mnemonic.form, Mnemonic.withArg]

/-- A word of an operation whose operand is not legal is reserved. -/
theorem decode_of_not_legal {w : CmdWord} {m : Mnemonic} (hop : opField w = m.opcode)
    (hl : m.form.legal (argField w) = false) : ∃ r, decode w = .illegal r := by
  cases m <;> simp_all [decode, Mnemonic.opcode, Mnemonic.form]

/-- A word whose opcode is that of no operation is reserved. -/
theorem decode_of_no_opcode {w : CmdWord} (h : ∀ m : Mnemonic, opField w ≠ m.opcode) : ∃ r, decode w = .illegal r := by
  have hrows : decode w = if opField w = 0x00 then .illegal .opZero else .illegal .opAboveSeven := by
    unfold decode
    exact (if_neg (h .selm)).trans <| (if_neg (h .sell)).trans <| (if_neg (h .selg)).trans <|
      (if_neg (h .setacc)).trans <| (if_neg (h .byte)).trans <| (if_neg (h .getcrc)).trans (if_neg (h .rdtbl))
  by_cases h0 : opField w = 0x00
  · exact ⟨.opZero, hrows.trans (if_pos h0)⟩
  · exact ⟨.opAboveSeven, hrows.trans (if_neg h0)⟩

/-- A word is reserved exactly when no operation has both its opcode and a form for which its operand is legal. -/
theorem decode_illegal_iff (w : CmdWord) : (∃ r, decode w = .illegal r) ↔
    ∀ m : Mnemonic, opField w = m.opcode → m.form.legal (argField w) = false := by
  constructor
  · rintro ⟨r, hr⟩ m hop
    by_contra hl
    rw [decode_of_legal hop (by simpa using hl)] at hr
    cases hr
  · intro h
    by_cases hm : ∃ m : Mnemonic, opField w = m.opcode
    · obtain ⟨m, hop⟩ := hm
      exact decode_of_not_legal hop (h m hop)
    · exact decode_of_no_opcode (not_exists.mp hm)

/-- `U8` takes the values below 256 (R67). -/
theorem legal_u8_iff_lt (a : Word) : Form.legal .u8 a = true ↔ a.toNat < 256 := by
  have hhigh : (a.extractLsb' 8 24).toNat = a.toNat / 256 := by
    have := a.isLt
    rw [BitVec.extractLsb'_toNat, Nat.shiftRight_eq_div_pow]
    omega
  rw [Form.legal, beq_iff_eq, ← BitVec.toNat_inj, hhigh]
  exact Nat.div_eq_zero_iff_lt (by decide)

/-- `U8` reads the operand modulo 256 (R67). -/
theorem argByte_toNat (a : Word) : (argByte a).toNat = a.toNat % 256 := by
  simp [argByte]

/-- Settles O5: the forms one by one, and a word of an operation by whether its operand is legal. -/
theorem operandFormsReadAsSpecified : Obligations.OperandFormsReadAsSpecified := by
  unfold Obligations.OperandFormsReadAsSpecified
  intro a
  refine ⟨legal_z a, legal_u32 a, legal_u8_iff_lt a, argByte_toNat a, ?_⟩
  rintro w m hop rfl
  exact ⟨fun hl => ⟨_, decode_of_legal hop hl, mnemonic_withArg m _, arg_withArg hl⟩, decode_of_not_legal hop⟩

/-- Two words are equal exactly when their fields are (R66). -/
theorem word_eq_iff_fields (w v : CmdWord) : w = v ↔ opField w = opField v ∧ argField w = argField v := by
  constructor
  · rintro rfl
    exact ⟨rfl, rfl⟩
  · rintro ⟨hop, harg⟩
    rw [← mkWord_fields w, ← mkWord_fields v, hop, harg]

theorem opField_and (w v : CmdWord) : opField (w &&& v) = opField w &&& opField v := BitVec.extractLsb'_and

theorem argField_and (w v : CmdWord) : argField (w &&& v) = argField w &&& argField v := BitVec.extractLsb'_and

/-- The bits of the operand field that a form requires to be zero. -/
def Form.zeroBits : Form → Word
  | .z => 0xFFFFFFFF
  | .u32 => 0
  | .u8 => 0xFFFFFF00

/-- An operand field is legal for a form exactly when the form's zero bits are zero in it (R67). -/
theorem legal_iff_zeroBits (f : Form) (a : Word) : f.legal a = true ↔ a &&& f.zeroBits = 0 := by
  cases f with
  | z =>
    have hmask : a &&& Form.zeroBits .z = a := BitVec.and_allOnes
    rw [legal_z, hmask]
  | u32 => simp [Form.zeroBits]
  | u8 =>
    constructor
    · intro h
      have hbyte : ∀ b : Byte, zext32 b &&& Form.zeroBits .u8 = 0 := by decide
      rw [← (legal_u8_iff a).mp h]
      exact hbyte _
    · intro h
      have hhigh : (a &&& Form.zeroBits .u8).extractLsb' 8 24 = a.extractLsb' 8 24 := by
        rw [BitVec.extractLsb'_and]
        exact BitVec.and_allOnes
      rw [Form.legal, ← hhigh, h]
      rfl

/-- A row of R68 fixes the whole opcode and the zero bits of the operand's form. -/
theorem row_iff (w : CmdWord) (m : Mnemonic) :
    w &&& m.rowMask = m.rowMatch ↔ opField w = m.opcode ∧ m.form.legal (argField w) = true := by
  obtain ⟨hmaskOp, hmaskArg⟩ : opField m.rowMask = BitVec.allOnes 8 ∧ argField m.rowMask = m.form.zeroBits := by
    cases m <;> decide
  obtain ⟨hmatchOp, hmatchArg⟩ : opField m.rowMatch = m.opcode ∧ argField m.rowMatch = 0 := by
    cases m <;> decide
  have hop : opField (w &&& m.rowMask) = opField w := by
    rw [opField_and, hmaskOp, BitVec.and_allOnes]
  have harg : argField (w &&& m.rowMask) = argField w &&& m.form.zeroBits := by
    rw [argField_and, hmaskArg]
  rw [word_eq_iff_fields, hop, harg, hmatchOp, hmatchArg, legal_iff_zeroBits]

/-- The reserved words are those that match none of the seven rows (R69). -/
theorem decode_illegal_iff_no_row (w : CmdWord) :
    (∃ r, decode w = .illegal r) ↔ ∀ m : Mnemonic, w &&& m.rowMask ≠ m.rowMatch := by
  simp only [decode_illegal_iff, ne_eq, row_iff, not_and, Bool.not_eq_true]

/-- The union of the four classes of R69, as a condition on the two fields. -/
def reservedFields (op : BitVec 8) (a : Word) : Prop :=
  op = 0 ∨ 8 ≤ op.toNat ∨ ((op = 1 ∨ op = 2) ∧ a ≠ 0) ∨ ((op = 5 ∨ op = 7) ∧ a.extractLsb' 8 24 ≠ 0)

/-- With the opcode of an operation, the classes say that the operand is not legal. -/
theorem reservedFields_opcode (m : Mnemonic) (a : Word) :
    reservedFields m.opcode a ↔ m.form.legal a = false := by
  cases m <;> simp [reservedFields, Mnemonic.opcode, Mnemonic.form, Form.legal]

/-- The reserved words are the four classes (R69). -/
theorem decode_illegal_iff_reservedFields (w : CmdWord) :
    (∃ r, decode w = .illegal r) ↔ reservedFields (opField w) (argField w) := by
  rw [decode_illegal_iff]
  constructor
  · intro h
    rcases opcode_cases (opField w) with ⟨m, hop⟩ | h0 | h8
    · rw [hop, reservedFields_opcode]
      exact h m hop
    · exact .inl h0
    · exact .inr (.inl h8)
  · intro h m hop
    rwa [hop, reservedFields_opcode] at h

/-- Settles O6: the rows and the classes both say that no operation has the opcode and takes the operand; the effect is
the one of an illegal word without a fault. -/
theorem reservedWordsAreIllegalCommands : Obligations.ReservedWordsAreIllegalCommands := by
  unfold Obligations.ReservedWordsAreIllegalCommands
  refine ⟨decode_illegal_iff_no_row, decode_illegal_iff_reservedFields, ?_, ⟨.opZero, by decide⟩,
    ⟨.opAboveSeven, by decide⟩⟩
  intro w s r hd hf
  rw [Machine.acceptWord_of_illegal hf hd, Machine.raiseFault_of_clear _ _ hf]
  rfl

end Sys2Proof
end

section
/-! PROOFS. The run of the machine on a presented sequence of words (spec/30_encoding.md R63): O11. -/

namespace Sys2Proof.Machine

/-- A step on a presented word whose effect goes on: what stands behind the word is still to come. -/
theorem step_presented_of_next {w : CmdWord} {s t : State} (q : List HostEvent) (h : acceptWord w s = .next t) :
    step { s with inbox := .command w :: q } = .next { t with inbox := q } :=
  (step_command rfl).trans (acceptWord_setInbox (s := s) q h)

/-- A step on a presented word that stops the model. -/
theorem step_presented_of_fault {w : CmdWord} {s : State} {r : Fault} (q : List HostEvent)
    (h : acceptWord w s = .fault r) : step { s with inbox := .command w :: q } = .fault r :=
  (step_command rfl).trans (acceptWord_fault_setInbox (s := s) q h)

/-- The machine run on presented words is the composition of the words' effects, and leaves the rest of the inbox for
later. -/
theorem run_commands (ws : List CmdWord) (rest : List HostEvent) (s : State) :
    Sys2Proof.core.run ws.length { s with inbox := ws.map HostEvent.command ++ rest } =
      runWords ws { s with inbox := rest } := by
  induction ws generalizing s with
  | nil => rfl
  | cons w ws ih =>
    cases hw : acceptWord w { s with inbox := rest } with
    | next t =>
      have hinbox : t.inbox = rest := acceptWord_inbox hw
      have hothers := ih t
      rw [show { t with inbox := rest } = t by rw [← hinbox]] at hothers
      rw [runWords_cons ws hw]
      exact (run_next ws.length (step_presented_of_next (s := { s with inbox := rest }) _ hw)).trans hothers
    | fault r =>
      rw [runWords, hw]
      exact run_fault ws.length (step_presented_of_fault (s := { s with inbox := rest }) _ hw)
    | refused r => exact absurd hw (acceptWord_not_refused w _ r)

/-- A sequence of one word has the effect of the word. -/
theorem runWords_singleton (w : CmdWord) (s : State) : runWords [w] s = acceptWord w s := by
  cases h : acceptWord w s <;> simp [runWords, h]

/-- After a first part that goes on, the second part runs on the state it left (R63). -/
theorem runWords_append_of_next {ws : List CmdWord} {s t : State} (vs : List CmdWord) (h : runWords ws s = .next t) :
    runWords (ws ++ vs) s = runWords vs t := by
  rw [runWords_append, h]

/-- Settles O11, by induction on the sequence: no word's effect depends on what stands behind it in the inbox. -/
theorem stepsRunTheCommandSequence : Obligations.StepsRunTheCommandSequence := by
  unfold Obligations.StepsRunTheCommandSequence
  exact ⟨run_commands, fun c _ ds s _ => ⟨runWords_singleton c s, runWords_append_of_next ds⟩⟩

end Sys2Proof.Machine
end

section
/-! PROOFS. The convention of a polynomial and entry 0 of its table (spec/40_table_generator.md R80, R85): O22, O24. -/

namespace Sys2Proof.Machine

/-- Bit 31 of a word is set exactly from 2^31 on. -/
theorem getLsbD_31_iff (p : Word) : p.getLsbD 31 = true ↔ 2 ^ 31 ≤ p.toNat := by
  have htop : p.getLsbD 31 = p.msb := p.msb_eq_getLsbD_last.symm
  rw [htop, BitVec.msb_eq_decide, decide_eq_true_iff]

theorem classify_eq_reflected_iff (p : Word) : classify p = .reflected ↔ 2 ^ 31 ≤ p.toNat := by
  rw [← getLsbD_31_iff, classify]
  split <;> simp_all

/-- There are two conventions, so `Normal` is what `Reflected` is not. -/
theorem classify_eq_normal_iff (p : Word) : classify p = .normal ↔ p.toNat < 2 ^ 31 := by
  rw [← Nat.not_le, ← classify_eq_reflected_iff]
  cases classify p <;> simp

/-- Settles O22: bit 31 of a word is its comparison with 2^31; the rule's corner cases and examples are evaluated. -/
theorem classifyIsTheTopBit : Obligations.ClassifyIsTheTopBit := by
  unfold Obligations.ClassifyIsTheTopBit
  exact ⟨fun p => ⟨classify_eq_reflected_iff p, classify_eq_normal_iff p⟩, by decide⟩

/-- The reflected loop is linear, so it keeps the value 0 whatever the polynomial. -/
@[simp] theorem rsteps_zero (p : Word) (n : Nat) : rsteps p n 0#32 = 0#32 := by
  have h := rsteps_xor p n 0#32 0#32
  rwa [BitVec.xor_self, BitVec.xor_self] at h

/-- On two zero variables the normal loop never takes the branch that adds the polynomial. -/
@[simp] theorem normalLoop_zero (p : Word) (n : Nat) : normalLoop p n 0#32 0#32 = 0#32 := by
  induction n with
  | zero => rfl
  | succ n ih => simp [normalLoop, ih]

/-- Settles O24: index 0 starts either generator at 0, and both loops keep it. -/
theorem entryZeroIsZero : Obligations.EntryZeroIsZero := by
  unfold Obligations.EntryZeroIsZero
  intro p v
  cases v with
  | normal => exact normalLoop_zero p Config.niter
  | reflected => exact rsteps_zero p Config.niter

end Sys2Proof.Machine
end

section
/-! PROOFS. What a build and a select leave in their own slot and in the others, and the table of polynomial 0
(spec/41_table_cache.md R100 to R103, R106). -/

namespace Sys2Proof.Machine

/-- The selects go on in every state: none of them reads an entry or tests a condition that could stop (R101 to R103). -/
theorem exec_selm (s : State) : exec .selm s = .next (selectNamed .m Config.polyM s) := rfl
theorem exec_sell (s : State) : exec .sell s = .next (selectNamed .l Config.polyL s) := rfl
theorem exec_selg (p : Word) (s : State) : exec (.selg p) s = .next (selectGeneric p s) := rfl

section Build
variable (sl : Slot) (p : Word) (s : State)

theorem tblRead_build_self (i : Byte) : tblRead sl i (build sl p s) = some (tableOf p i) := by
  rw [tblRead_build, if_pos rfl]

theorem tblRead_build_other {sl' : Slot} (h : sl' ≠ sl) (i : Byte) :
    tblRead sl' i (build sl p s) = tblRead sl' i s := by
  rw [tblRead_build, if_neg h]

theorem build_built_self : (build sl p s).built sl = true := by simp

theorem build_built_other {sl' : Slot} (h : sl' ≠ sl) : (build sl p s).built sl' = s.built sl' := by simp [h]
end Build

section SelectNamed
variable (sl : Slot) (p : Word) (s : State)

theorem tblRead_selectNamed_miss (h : s.built sl = false) (i : Byte) :
    tblRead sl i (selectNamed sl p s) = some (tableOf p i) := by
  rw [tblRead_selectNamed, if_pos ⟨rfl, h⟩]

theorem tblRead_selectNamed_other {sl' : Slot} (h : sl' ≠ sl) (i : Byte) :
    tblRead sl' i (selectNamed sl p s) = tblRead sl' i s := by
  rw [tblRead_selectNamed, if_neg fun hself => h hself.1]

theorem selectNamed_built_self : (selectNamed sl p s).built sl = true := by simp

theorem selectNamed_built_other {sl' : Slot} (h : sl' ≠ sl) : (selectNamed sl p s).built sl' = s.built sl' := by simp [h]

/-- Selecting a built slot that is already active changes nothing: neither of the two writes has an effect. -/
theorem selectNamed_of_active (hb : s.built sl = true) (ha : s.active = some sl) : selectNamed sl p s = s := by
  rw [selectNamed, if_pos hb, activate_of_active s sl ha]

/-- The registers a named select does not write, and the ends of the ports (R101, R102). -/
theorem selectNamed_registers :
    (selectNamed sl p s).gpoly = s.gpoly ∧ (selectNamed sl p s).acc = s.acc ∧
    (selectNamed sl p s).fault = s.fault ∧ (selectNamed sl p s).cause = s.cause ∧
    (selectNamed sl p s).inbox = s.inbox ∧ (selectNamed sl p s).pending = s.pending ∧
    (selectNamed sl p s).delivered = s.delivered := by
  simp
end SelectNamed

section SelectGeneric
variable (p : Word) (s : State)

/-- `SELG p` misses exactly when the slot is unbuilt or was built from another polynomial (R103). -/
theorem genericMiss_iff : genericMiss p s = true ↔ s.builtG = false ∨ s.gpoly ≠ p := by
  simp [genericMiss]

theorem tblRead_selectGeneric_miss (h : s.builtG = false ∨ s.gpoly ≠ p) (i : Byte) :
    tblRead .g i (selectGeneric p s) = some (tableOf p i) := by
  rw [tblRead_selectGeneric, if_pos ⟨rfl, (genericMiss_iff p s).mpr h⟩]

theorem tblRead_selectGeneric_other {sl : Slot} (h : sl ≠ .g) (i : Byte) :
    tblRead sl i (selectGeneric p s) = tblRead sl i s := by
  rw [tblRead_selectGeneric, if_neg fun hself => h hself.1]

theorem selectGeneric_built_self : (selectGeneric p s).builtG = true := selectGeneric_built p s .g

theorem selectGeneric_built_other {sl : Slot} (h : sl ≠ .g) : (selectGeneric p s).built sl = s.built sl := by simp [h]

/-- Selecting again the polynomial of the active generic slot changes nothing. -/
theorem selectGeneric_of_active (hb : s.builtG = true) (hp : s.gpoly = p) (ha : s.active = some .g) :
    selectGeneric p s = s := by
  have hhit : genericMiss p s = false := (genericMiss_eq_false p s).mpr ⟨hb, hp⟩
  simp [selectGeneric, hhit, activate_of_active s .g ha]

/-- A second `SELG p` finds what the first one left, whether that one hit or missed (R103, corner case b). -/
theorem selectGeneric_selectGeneric : selectGeneric p (selectGeneric p s) = selectGeneric p s :=
  selectGeneric_of_active p _ (selectGeneric_built_self p s) (selectGeneric_gpoly p s) (selectGeneric_active p s)

/-- The registers a generic select does not write, and the ends of the ports (R103). -/
theorem selectGeneric_registers :
    (selectGeneric p s).acc = s.acc ∧ (selectGeneric p s).fault = s.fault ∧ (selectGeneric p s).cause = s.cause ∧
    (selectGeneric p s).inbox = s.inbox ∧ (selectGeneric p s).pending = s.pending ∧
    (selectGeneric p s).delivered = s.delivered := by
  simp
end SelectGeneric

/-- With polynomial 0 both branches of the normal loop only shift, so its value stays 0 whatever the index. -/
theorem normalLoop_zero_poly (n : Nat) (c : Word) : normalLoop 0 n 0 c = 0 := by
  induction n generalizing c with
  | zero => rfl
  | succ n ih => simpa [normalLoop] using ih (c <<< 1)

/-- Polynomial 0 has the all-zero table, of the `Normal` convention (R106). -/
theorem tableOf_zero (i : Byte) : tableOf 0 i = 0 := by
  have hnormal : classify 0 = .normal := by decide
  rw [tableOf, hnormal]
  exact normalLoop_zero_poly Config.niter _

/-- The word with opcode `0x03` and any operand is `SELG` of that operand: its form has no illegal operand (R67, R68). -/
theorem decode_selg (p : Word) : decode (mkWord 0x03 p) = .command (.selg p) := by
  have hop : opField (mkWord 0x03 p) = Mnemonic.selg.opcode := opField_mkWord _ _
  have hdecode := decode_of_legal hop rfl
  rwa [argField_mkWord] at hdecode

end Sys2Proof.Machine
end

section
/-! PROOFS. The obligations on the Table Cache (spec/41_table_cache.md R100 to R103, R106): O28, O29, O30, O31, O35. -/

namespace Sys2Proof.Machine

/-- Settles O28: the list of indexes a build runs over holds all 256, and no write leaves its slot. -/
theorem buildWritesTheWholeTable : Obligations.BuildWritesTheWholeTable := by
  unfold Obligations.BuildWritesTheWholeTable
  intro sl p s
  exact ⟨tblRead_build_self sl p s, fun _ i h => tblRead_build_other sl p s h i, build_built_self sl p s,
    fun _ h => build_built_other sl p s h, build_gpoly .., build_active .., build_acc .., build_fault .., build_cause ..,
    build_pending ..⟩

/-- Settles O29: the select of the named slot `M`, whose polynomial is `Normal`. -/
theorem selmSelectsTheNormalNamedTable : Obligations.SelmSelectsTheNormalNamedTable := by
  unfold Obligations.SelmSelectsTheNormalNamedTable
  have hdecode : decode 0x0100000000 = .command .selm := by decide
  have hmiss (s : State) (h : s.builtM = false) (i : Byte) :
      tblRead .m i (selectNamed .m Config.polyM s) = some (genNormal 0x04C11DB7 i) := by
    rw [tblRead_selectNamed_miss .m _ s h, tableOf_polyM]
  refine ⟨hdecode, fun s => ?_, ?_⟩
  · have hl : Slot.l ≠ .m := by decide
    have hg : Slot.g ≠ .m := by decide
    exact ⟨_, exec_selm s, rfl, selectNamed_built_self .m _ s, hmiss s, selectNamed_mem_hit .m _ s,
      selectNamed_of_active .m _ s,
      fun i => ⟨tblRead_selectNamed_other .m _ s hl i, tblRead_selectNamed_other .m _ s hg i⟩,
      selectNamed_built_other .m _ s hl, selectNamed_built_other .m _ s hg, selectNamed_registers .m _ s⟩
  · refine ⟨_, acceptWord_of_command rfl hdecode, selectNamed_built_self .m _ _, rfl, ?_, ?_⟩
    · exact (hmiss State.reset rfl 1).trans (by decide)
    · exact (hmiss State.reset rfl 255).trans (by decide)

/-- Settles O30: the select of the named slot `L`, whose polynomial is `Reflected`. -/
theorem sellSelectsTheReflectedNamedTable : Obligations.SellSelectsTheReflectedNamedTable := by
  unfold Obligations.SellSelectsTheReflectedNamedTable
  have hdecode : decode 0x0200000000 = .command .sell := by decide
  have hmiss (s : State) (h : s.builtL = false) (i : Byte) :
      tblRead .l i (selectNamed .l Config.polyL s) = some (genReflected 0xEDB88320 i) := by
    rw [tblRead_selectNamed_miss .l _ s h, tableOf_polyL]
  refine ⟨hdecode, fun s => ?_, ?_⟩
  · have hm : Slot.m ≠ .l := by decide
    have hg : Slot.g ≠ .l := by decide
    exact ⟨_, exec_sell s, rfl, selectNamed_built_self .l _ s, hmiss s, selectNamed_mem_hit .l _ s,
      selectNamed_of_active .l _ s,
      fun i => ⟨tblRead_selectNamed_other .l _ s hm i, tblRead_selectNamed_other .l _ s hg i⟩,
      selectNamed_built_other .l _ s hm, selectNamed_built_other .l _ s hg, selectNamed_registers .l _ s⟩
  · refine ⟨_, acceptWord_of_command rfl hdecode, selectNamed_built_self .l _ _, rfl, ?_, ?_, ?_⟩
    · exact (hmiss State.reset rfl 1).trans (by decide)
    · exact (hmiss State.reset rfl 128).trans (by decide)
    · exact (hmiss State.reset rfl 255).trans (by decide)

/-- Settles O31: the select of the generic slot, whose hit needs both the flag and the same polynomial. -/
theorem selgSelectsTheGenericTable : Obligations.SelgSelectsTheGenericTable := by
  unfold Obligations.SelgSelectsTheGenericTable
  refine ⟨decode_selg, fun s p => ?_, ?_⟩
  · have hm : Slot.m ≠ .g := by decide
    have hl : Slot.l ≠ .g := by decide
    exact ⟨_, exec_selg p s, rfl, selectGeneric_built_self p s, selectGeneric_gpoly p s, tblRead_selectGeneric_miss p s,
      fun hb hp => selectGeneric_mem_hit p s ((genericMiss_eq_false p s).mpr ⟨hb, hp⟩), selectGeneric_of_active p s,
      fun i => ⟨tblRead_selectGeneric_other p s hm i, tblRead_selectGeneric_other p s hl i⟩,
      selectGeneric_built_other p s hm, selectGeneric_built_other p s hl, selectGeneric_registers p s⟩
  · have hentry := tblRead_selectGeneric_miss 0x1EDC6F41 State.reset (.inl rfl)
    refine ⟨_, acceptWord_of_command rfl (decode_selg 0x1EDC6F41), selectGeneric_built_self _ _,
      selectGeneric_gpoly _ _, rfl, ?_, ?_, ?_⟩
    · rw [convOf, polyOf_g, selectGeneric_gpoly]
      decide
    · exact (hentry 1).trans (by decide)
    · exact (hentry 128).trans (by decide)

/-- Settles O35: the unbuilt flag alone makes `SELG 0` miss, so it builds the table of polynomial 0. -/
theorem polynomialZeroIsAPolynomial : Obligations.PolynomialZeroIsAPolynomial := by
  unfold Obligations.PolynomialZeroIsAPolynomial
  intro s hunbuilt
  refine ⟨selectGeneric 0 s, exec_selg 0 s, selectGeneric_gpoly 0 s, selectGeneric_built_self 0 s, fun i => ?_, ?_⟩
  · rw [tblRead_selectGeneric_miss 0 s (.inl hunbuilt), tableOf_zero]
  · rw [exec_selg, selectGeneric_selectGeneric]

end Sys2Proof.Machine
end

section
/-! PROOFS. The CRC Engine's update rule and what its commands do on the active table (spec/42_crc_engine.md R110 to
R114). -/

namespace Sys2Proof.Machine

/-- The mask of the rule's index keeps exactly the byte that is read (R110, R121). -/
theorem argByte_and_mask (x : Word) : argByte (x &&& 0xFF) = argByte x := by
  have hmask : argByte 0xFF = BitVec.allOnes 8 := by decide
  have hand : argByte (x &&& 0xFF) = argByte x &&& argByte 0xFF := BitVec.extractLsb'_and
  rw [hand, hmask, BitVec.and_allOnes]

/-- Reading the low byte commutes with XOR, and gives a zero-extended byte back. -/
theorem argByte_xor_zext32 (x : Word) (b : Byte) : argByte (x ^^^ zext32 b) = argByte x ^^^ b := by
  have hxor : argByte (x ^^^ zext32 b) = argByte x ^^^ argByte (zext32 b) := BitVec.extractLsb'_xor
  rw [hxor, argByte_zext32]

/-- Under `Reflected` the table is indexed by the low byte of the accumulator XOR the data byte (R110). -/
theorem updateIndex_reflected (a : Word) (b : Byte) : updateIndex .reflected a b = a.extractLsb' 0 8 ^^^ b := by
  rw [updateIndex, argByte_and_mask, argByte_xor_zext32, argByte]

/-- Under `Normal` it is indexed by the high byte of the accumulator XOR the data byte (R110). -/
theorem updateIndex_normal (a : Word) (b : Byte) : updateIndex .normal a b = a.extractLsb' 24 8 ^^^ b := by
  have hhigh : argByte (a >>> 24) = a.extractLsb' 24 8 := by
    apply BitVec.eq_of_toNat_eq
    simp [argByte]
  rw [updateIndex, argByte_and_mask, argByte_xor_zext32, hhigh]

/-- The rule of R110 for the `Reflected` convention. -/
theorem update_reflected (tbl : CrcTable) (a : Word) (b : Byte) :
    update tbl .reflected a b = (a >>> 8) ^^^ tbl (a.extractLsb' 0 8 ^^^ b) := by
  rw [update, updateIndex_reflected]
  rfl

/-- The rule of R110 for the `Normal` convention. -/
theorem update_normal (tbl : CrcTable) (a : Word) (b : Byte) :
    update tbl .normal a b = (a <<< 8) ^^^ tbl (a.extractLsb' 24 8 ^^^ b) := by
  rw [update, updateIndex_normal]
  rfl

/-- A data byte equal to the byte of the accumulator that the `Reflected` rule shifts out reads entry 0, which holds 0
(R112, corner case). -/
theorem update_reflected_of_low_byte (p a : Word) :
    update (genTable p .reflected) .reflected a (a.extractLsb' 0 8) = a >>> 8 := by
  have hentry : genReflected p 0#8 = 0#32 := entryZeroIsZero p .reflected
  rw [update_reflected, BitVec.xor_self, genTable, hentry, BitVec.xor_zero]

/-- The same for the byte that the `Normal` rule shifts out. -/
theorem update_normal_of_high_byte (p a : Word) :
    update (genTable p .normal) .normal a (a.extractLsb' 24 8) = a <<< 8 := by
  have hentry : genNormal p 0#8 = 0#32 := entryZeroIsZero p .normal
  rw [update_normal, BitVec.xor_self, genTable, hentry, BitVec.xor_zero]

/-- Polynomial 0 is of the `Normal` convention and all its entries are 0, so an update under it only shifts. -/
theorem update_of_polynomial_zero (a : Word) (b : Byte) :
    update (tableOf 0) (classify 0) a b = a <<< 8 := by
  have hnormal : classify 0 = .normal := by decide
  rw [hnormal, update_normal, tableOf_zero]
  exact BitVec.xor_zero

section Active
variable {s : State} {sl : Slot} (hc : CacheInvariant s) (ha : s.active = some sl)
include hc ha

/-- Every entry of the active table holds a value: that of the generator for the slot's polynomial under its convention
(R32). -/
theorem tblRead_active (k : Byte) : tblRead sl k s = some (genTable (polyOf sl s) (convOf sl s) k) := by
  have hb := hc.activeBuilt sl ha
  cases sl with
  | m => rw [convOf_m]; exact hc.tableM hb k
  | l => rw [convOf_l]; exact hc.tableL hb k
  | g => exact hc.tableG hb k

/-- `BYTE b` goes on with the value of one update on the active table in `ACC` (R112). -/
theorem execByte_of_update {b : Byte} {a : Word}
    (h : update (genTable (polyOf sl s) (convOf sl s)) (convOf sl s) s.acc b = a) :
    exec (.byte b) s = .next { s with acc := a } := by
  subst h
  exact execByte_of_read ha (tblRead_active hc ha _)

/-- `RDTBL k` goes on with entry `k` of the active table as the next response (R114). -/
theorem execRdtbl_of_active (k : Byte) :
    exec (.rdtbl k) s = .next (respond (genTable (polyOf sl s) (convOf sl s) k) s) :=
  execRdtbl_of_read ha (tblRead_active hc ha k)
end Active

/-- The word of an operation with a legal operand field is that operation's command. -/
theorem decode_mkWord {m : Mnemonic} {a : Word} (hl : m.form.legal a = true) :
    decode (mkWord m.opcode a) = .command (m.withArg a) := by
  have hdecode := decode_of_legal (opField_mkWord m.opcode a) (by rwa [argField_mkWord])
  rwa [argField_mkWord] at hdecode

/-- Op `0x05` with any zero-extended byte is `BYTE` of that byte (R67, R68). -/
theorem decode_byte (b : Byte) : decode (mkWord 0x05 (zext32 b)) = .command (.byte b) :=
  (decode_mkWord (m := .byte) (legal_u8_zext32 b)).trans (by rw [Mnemonic.withArg, argByte_zext32])

/-- Op `0x07` with any zero-extended byte is `RDTBL` of that index (R67, R68). -/
theorem decode_rdtbl (k : Byte) : decode (mkWord 0x07 (zext32 k)) = .command (.rdtbl k) :=
  (decode_mkWord (m := .rdtbl) (legal_u8_zext32 k)).trans (by rw [Mnemonic.withArg, argByte_zext32])

end Sys2Proof.Machine
end

section
/-! PROOFS. The obligations on the CRC Engine (spec/42_crc_engine.md R110 to R114, R119): O40, O42, O37, O39, O41, O49. -/

namespace Sys2Proof.Machine

/-- Settles O40: `BYTE` is one update on the active table, and each clause says what that update gives. -/
theorem byteIsOneUpdateOfTheActiveTable : Obligations.ByteIsOneUpdateOfTheActiveTable := by
  unfold Obligations.ByteIsOneUpdateOfTheActiveTable
  refine ⟨decode_byte, fun s sl b hc ha => ⟨?reflected, ?normal, ?polynomialZero, ?lowByte, ?highByte, ?exampleL,
    ?exampleM⟩, fun s b hnone hf => ?noTable⟩
  case reflected =>
    intro hv
    exact execByte_of_update hc ha (by rw [hv, update_reflected])
  case normal =>
    intro hv
    exact execByte_of_update hc ha (by rw [hv, update_normal])
  case polynomialZero =>
    intro hp
    have hzero := update_of_polynomial_zero s.acc b
    rw [← hp] at hzero
    exact execByte_of_update hc ha hzero
  case lowByte =>
    rintro hv rfl
    exact execByte_of_update hc ha (by rw [hv, update_reflected_of_low_byte])
  case highByte =>
    rintro hv rfl
    exact execByte_of_update hc ha (by rw [hv, update_normal_of_high_byte])
  case exampleL =>
    rintro rfl hacc
    exact execByte_of_update hc ha (by rw [convOf_l, polyOf_l, hacc]; decide)
  case exampleM =>
    rintro rfl hacc
    exact execByte_of_update hc ha (by rw [convOf_m, polyOf_m, hacc]; decide)
  case noTable =>
    rw [execByte_of_none hnone, raiseFault_of_clear _ _ hf]
    rfl

/-- Settles O42: `RDTBL` reads one entry of the active table; entry 0 of every table is 0. -/
theorem rdtblRespondsOneEntry : Obligations.RdtblRespondsOneEntry := by
  unfold Obligations.RdtblRespondsOneEntry
  refine ⟨decode_rdtbl, fun s sl k hc ha => ⟨execRdtbl_of_active hc ha k, ?entryZero⟩, fun s k hnone hf => ?noTable,
    ?workedExample⟩
  case entryZero =>
    have hzero : genTable (polyOf sl s) (convOf sl s) 0 = 0 := entryZeroIsZero _ _
    rw [execRdtbl_of_active hc ha, hzero]
    rfl
  case noTable =>
    rw [execRdtbl_of_none hnone, raiseFault_of_clear _ _ hf]
    rfl
  case workedExample =>
    have hsell : acceptWord 0x0200000000 State.reset = .next (selectNamed .l Config.polyL State.reset) :=
      acceptWord_of_command (i := .sell) rfl (by decide)
    have hclear : (selectNamed .l Config.polyL State.reset).fault = false := selectNamed_fault ..
    have hrdtbl : decode 0x0700000080 = .command (.rdtbl 0x80) := by decide
    have hentry := tblRead_selectNamed_miss .l Config.polyL State.reset rfl 0x80
    refine ⟨respond (tableOf Config.polyL 0x80) (selectNamed .l Config.polyL State.reset), ?_, ?_⟩
    · rw [runWords_cons _ hsell, runWords_singleton, acceptWord_of_command hclear hrdtbl,
        execRdtbl_of_read (selectNamed_active ..) hentry]
    · rw [respond_pending, selectNamed_pending]
      decide

/-- Settles O37: the index of each rule is one byte of the accumulator XOR the data byte. -/
theorem updateFollowsItsConvention : Obligations.UpdateFollowsItsConvention := by
  unfold Obligations.UpdateFollowsItsConvention
  exact fun tbl a b => ⟨update_reflected tbl a b, update_normal tbl a b⟩

/-- Settles O39: every operand of op `0x04` is legal, and the command writes it to `ACC` without a test. -/
theorem setaccWritesTheAccumulator : Obligations.SetaccWritesTheAccumulator := by
  unfold Obligations.SetaccWritesTheAccumulator
  exact ⟨fun v => decode_mkWord (m := .setacc) (legal_u32 v), fun _ _ => rfl⟩

/-- Settles O41: the command responds `ACC` XOR the mask; masks 0 and all ones give `ACC` and its complement. -/
theorem getcrcRespondsTheMaskedAccumulator : Obligations.GetcrcRespondsTheMaskedAccumulator := by
  unfold Obligations.GetcrcRespondsTheMaskedAccumulator
  have hexec (s : State) {x v : Word} (h : s.acc ^^^ x = v) :
      exec (.getcrc x) s = .next { s with pending := s.pending ++ [v] } := by
    subst h
    rfl
  refine ⟨fun x => decode_mkWord (m := .getcrc) (legal_u32 x), fun s x => hexec s rfl,
    fun s => ⟨hexec s BitVec.xor_zero, hexec s BitVec.xor_allOnes⟩, hexec State.reset BitVec.xor_zero, fun s hacc => ?_⟩
  exact hexec s (by rw [hacc]; decide)

/-- Settles O49: the rule's four values, evaluated. -/
theorem foldIsOrderSensitive : Obligations.FoldIsOrderSensitive := by
  unfold Obligations.FoldIsOrderSensitive
  decide

end Sys2Proof.Machine
end

section
/-! PROOFS. The command sequences of the Variant Façade on the active table (spec/42_crc_engine.md R115, R116,
spec/43_variant_facade.md R130, R134): the words they are made of, and what each part of them leaves. -/

namespace Sys2Proof.Machine

/-- A command is the one its operation gives for its operand field. -/
theorem withArg_arg (i : Instr) : i.mnemonic.withArg i.arg = i := by
  cases i <;> simp [Instr.mnemonic, Mnemonic.withArg, Instr.arg]

/-- The word of a command decodes to the command (R70). -/
theorem decode_encode (i : Instr) : decode (encode i) = .command i :=
  (decode_mkWord (legal_arg i)).trans (congrArg _ (withArg_arg i))

/-- Without a fault the word of a command has the effect of the command (R63). -/
theorem acceptWord_encode {s : State} (hf : s.fault = false) (i : Instr) : acceptWord (encode i) s = exec i s :=
  acceptWord_of_command hf (decode_encode i)

/-- A sequence whose first command goes on. -/
theorem runWords_encode_cons {i : Instr} {s t : State} (ws : List CmdWord) (hf : s.fault = false)
    (h : exec i s = .next t) : runWords (encode i :: ws) s = runWords ws t :=
  runWords_cons ws ((acceptWord_encode hf i).trans h)

/-- The state in which commands run on the table of `p` in slot `sl`: that slot is active and built, every entry of it
holds its value, and there is no fault. -/
structure ActiveTable (sl : Slot) (p : Word) (s : State) : Prop where
  active : s.active = some sl
  built : s.built sl = true
  poly : polyOf sl s = p
  entry : ∀ k, tblRead sl k s = some (tableOf p k)
  clear : s.fault = false

section OnTheActiveTable
variable {sl : Slot} {p : Word} {s : State} (h : ActiveTable sl p s)
include h

theorem ActiveTable.setAcc (a : Word) : ActiveTable sl p { s with acc := a } where
  active := h.active
  built := by cases sl <;> exact h.built
  poly := by cases sl <;> exact h.poly
  entry := h.entry
  clear := h.clear

theorem ActiveTable.setPending (vs : List Word) : ActiveTable sl p { s with pending := vs } where
  active := h.active
  built := by cases sl <;> exact h.built
  poly := by cases sl <;> exact h.poly
  entry := h.entry
  clear := h.clear

/-- `BYTE` is one update under the active table's polynomial (R112). -/
theorem ActiveTable.exec_byte (b : Byte) :
    exec (.byte b) s = .next { s with acc := update (tableOf p) (classify p) s.acc b } := by
  obtain ⟨hactive, -, rfl, hentry, -⟩ := h
  exact execByte_of_read hactive (hentry _)

/-- `RDTBL` responds one entry of the active table (R114). -/
theorem ActiveTable.exec_rdtbl (k : Byte) :
    exec (.rdtbl k) s = .next { s with pending := s.pending ++ [tableOf p k] } :=
  execRdtbl_of_read h.active (h.entry k)

/-- The `BYTE` commands of a string fold it into `ACC` (R115, R116). -/
theorem ActiveTable.runWords_fold (d : List Byte) :
    runWords ((foldCommands d).map encode) s =
      .next { s with acc := fold (tableOf p) (classify p) s.acc d } := by
  induction d generalizing s with
  | nil => rfl
  | cons b d ih => exact (runWords_encode_cons _ h.clear (h.exec_byte b)).trans (ih (h.setAcc _))

/-- A sequence of `RDTBL` commands responds the entries of the active table at their indexes, in order. -/
theorem ActiveTable.runWords_rdtbl (ks : List Byte) :
    runWords ((ks.map Instr.rdtbl).map encode) s =
      .next { s with pending := s.pending ++ ks.map (tableOf p) } := by
  induction ks generalizing s with
  | nil => simp [runWords]
  | cons k ks ih =>
    have hrest := ih (h.setPending (s.pending ++ [tableOf p k]))
    rw [List.append_assoc] at hrest
    exact (runWords_encode_cons _ h.clear (h.exec_rdtbl k)).trans hrest
end OnTheActiveTable

/-- The command goes on from `s` to a state in which the table of `p` in slot `sl` is active, and writes neither `ACC`
nor the response stream (R101 to R103). -/
structure SelectsTable (sel : Instr) (sl : Slot) (p : Word) (s t : State) : Prop where
  next : exec sel s = .next t
  table : ActiveTable sl p t
  acc : t.acc = s.acc
  pending : t.pending = s.pending

section Select
variable {s : State} (hc : CacheInvariant s) (hf : s.fault = false)

include hf in
/-- A named select leaves its table active: on a miss the build wrote it, on a hit it was there. -/
theorem activeTable_selectNamed {sl : Slot} {p : Word} (hpoly : polyOf sl (selectNamed sl p s) = p)
    (hhit : s.built sl = true → ∀ i, tblRead sl i s = some (tableOf p i)) :
    ActiveTable sl p (selectNamed sl p s) where
  active := selectNamed_active ..
  built := selectNamed_built_self ..
  poly := hpoly
  entry k := by
    cases hb : s.built sl with
    | false => exact tblRead_selectNamed_miss _ _ _ hb k
    | true => simpa [tblRead_selectNamed, hb] using hhit hb k
  clear := (selectNamed_fault ..).trans hf

include hc hf

theorem selectsTable_selm : SelectsTable .selm .m Config.polyM s (selectNamed .m Config.polyM s) where
  next := exec_selm s
  table := activeTable_selectNamed hf rfl fun hb => by rw [tableOf_polyM]; exact hc.tableM hb
  acc := selectNamed_acc ..
  pending := selectNamed_pending ..

theorem selectsTable_sell : SelectsTable .sell .l Config.polyL s (selectNamed .l Config.polyL s) where
  next := exec_sell s
  table := activeTable_selectNamed hf rfl fun hb => by rw [tableOf_polyL]; exact hc.tableL hb
  acc := selectNamed_acc ..
  pending := selectNamed_pending ..

/-- A hit of `SELG p` needs the tag `p`, and the slot then holds the table of its tag (R32, R103). -/
theorem selectsTable_selg (p : Word) : SelectsTable (.selg p) .g p s (selectGeneric p s) where
  next := exec_selg p s
  table :=
    { active := selectGeneric_active ..
      built := selectGeneric_built_self ..
      poly := selectGeneric_gpoly ..
      entry := fun k => by
        by_cases hmiss : s.builtG = false ∨ s.gpoly ≠ p
        · exact tblRead_selectGeneric_miss p s hmiss k
        · obtain ⟨hb, rfl⟩ : s.builtG = true ∧ s.gpoly = p := by simpa using hmiss
          have hhit : genericMiss s.gpoly s = false := (genericMiss_eq_false _ s).mpr ⟨hb, rfl⟩
          rw [tblRead_selectGeneric, if_neg (by simp [hhit])]
          exact hc.tableG hb k
      clear := (selectGeneric_fault ..).trans hf }
  acc := selectGeneric_acc ..
  pending := selectGeneric_pending ..

end Select

section Sequences
variable {sel : Instr} {sl : Slot} {p : Word} {s t : State} (h : SelectsTable sel sl p s t) (hf : s.fault = false)
include h hf

/-- A checksum sequence folds its string under the selected polynomial and responds the result XOR the mask (R130). -/
theorem SelectsTable.runWords_checksum (init : Word) (d : List Byte) (xorout : Word) :
    ∃ u, runWords ((checksumCommands sel init d xorout).map encode) s = .next u ∧
      u.pending = s.pending ++ [fold (tableOf p) (classify p) init d ^^^ xorout] ∧
      u.acc = fold (tableOf p) (classify p) init d ∧ ActiveTable sl p u := by
  have hinit := h.table.setAcc init
  let a := fold (tableOf p) (classify p) init d
  have hfold := hinit.setAcc a
  refine ⟨respond (a ^^^ xorout) { t with acc := a }, ?_, congrArg (· ++ [_]) h.pending, rfl, hfold.setPending _⟩
  calc runWords ((checksumCommands sel init d xorout).map encode) s
      = runWords ((foldCommands d).map encode ++ [encode (.getcrc xorout)]) { t with acc := init } := by
        rw [checksumCommands, List.map_cons, List.map_cons, List.map_append, runWords_encode_cons _ hf h.next]
        exact runWords_encode_cons _ h.table.clear rfl
    _ = runWords [encode (.getcrc xorout)] { t with acc := a } :=
        runWords_append_of_next _ (hinit.runWords_fold d)
    _ = .next _ := runWords_encode_cons [] hfold.clear rfl

/-- The 256 reads behind a select respond the whole table of the selected polynomial, index 0 first (R134). -/
theorem SelectsTable.runWords_table :
    ∃ u, runWords ((sel :: table32Reads).map encode) s = .next u ∧
      u.pending = s.pending ++ allIndexes.map (tableOf p) ∧ u.acc = s.acc ∧ ActiveTable sl p u := by
  refine ⟨{ t with pending := t.pending ++ allIndexes.map (tableOf p) }, ?_, congrArg (· ++ _) h.pending, h.acc,
    h.table.setPending _⟩
  have hreads : table32Reads = allIndexes.map Instr.rdtbl := List.map_map.symm
  rw [List.map_cons, runWords_encode_cons _ hf h.next, hreads, h.table.runWords_rdtbl]

end Sequences

/-- The words of a checksum sequence (R66, R68, R130). -/
theorem checksumCommands_words (sel : Instr) (init : Word) (d : List Byte) (xorout : Word) :
    (checksumCommands sel init d xorout).map encode =
      [encode sel, (0x04 : BitVec 8) ++ init] ++ d.map (fun b => (0x05 : BitVec 8) ++ b.setWidth 32) ++
        [(0x06 : BitVec 8) ++ xorout] := by
  simp only [checksumCommands, foldCommands, List.map_cons, List.map_append, List.map_map, List.map_nil,
    List.cons_append, List.nil_append]
  rfl

/-- The words of the reads of `TABLE32`: an index below 256 is the same number in the operand field (R67, R134). -/
theorem table32Reads_words :
    table32Reads.map encode = (List.range 256).map (fun i => (0x07 : BitVec 8) ++ BitVec.ofNat 32 i) := by
  rw [table32Reads, List.map_map]
  refine List.map_congr_left fun i hi => congrArg ((0x07 : BitVec 8) ++ ·) ?_
  have hlt : i < 256 := List.mem_range.mp hi
  apply BitVec.eq_of_toNat_eq
  simp [Instr.arg, zext32]
  omega

/-- The word of the select `TABLE32` uses (R134). -/
theorem encode_table32Select (p : Word) : encode (table32Select p) =
    if p = 0x04C11DB7 then 0x0100000000 else if p = 0xEDB88320 then 0x0200000000 else (0x03 : BitVec 8) ++ p := by
  rw [table32Select, apply_ite encode, apply_ite encode]
  rfl

/-- Folding under polynomial 0 only shifts: 8 bits a byte (R106, R135). -/
theorem fold_of_polynomial_zero (a : Word) (d : List Byte) :
    fold (tableOf 0) (classify 0) a d = a <<< (8 * d.length) := by
  induction d generalizing a with
  | nil => exact (BitVec.shiftLeft_zero a).symm
  | cons b d ih =>
    rw [fold, update_of_polynomial_zero, ih, ← BitVec.shiftLeft_add, List.length_cons]
    congr 1
    omega

end Sys2Proof.Machine
end

section
/-! PROOFS. The obligations on the Variant Façade (spec/43_variant_facade.md R131 to R135): O50, O51, O52, O53. -/

namespace Sys2Proof.Machine

/-- Settles O50: a checksum sequence on slot `M`, whose mask is 0. -/
theorem mpeg2SequenceRespondsItsChecksum : Obligations.Mpeg2SequenceRespondsItsChecksum := by
  unfold Obligations.Mpeg2SequenceRespondsItsChecksum
  refine ⟨fun d init => ⟨checksumCommands_words .selm _ d _, rfl⟩, fun s d init hs hf => ?_, fun _ => rfl, by decide⟩
  obtain ⟨t, hrun, hpending, hacc, ht⟩ :=
    (selectsTable_selm hs.cache hf).runWords_checksum hf (init.getD Config.initDefault) d Config.xoroutMpeg2
  rw [tableOf_polyM, classify_polyM] at hpending hacc
  exact ⟨t, hrun, hpending.trans (congrArg (s.pending ++ [·]) BitVec.xor_zero), hacc, ht.active, ht.built, ht.clear⟩

/-- The run of `CRC32` from a state that meets the invariant (R133). -/
theorem runWords_crc32 {s : State} (hs : BlockInvariant s) (hf : s.fault = false) (d : List Byte) (init : Option Word) :
    ∃ t, runWords (Pseudo.crc32 d init).words s = .next t ∧
      t.pending = s.pending ++ [fold (genReflected 0xEDB88320) .reflected (init.getD 0xFFFFFFFF) d ^^^ 0xFFFFFFFF] ∧
      t.acc = fold (genReflected 0xEDB88320) .reflected (init.getD 0xFFFFFFFF) d ∧
      t.active = some .l ∧ t.builtL = true ∧ t.fault = false := by
  obtain ⟨t, hrun, hpending, hacc, ht⟩ :=
    (selectsTable_sell hs.cache hf).runWords_checksum hf (init.getD Config.initDefault) d Config.xoroutCrc32
  rw [tableOf_polyL, classify_polyL] at hpending hacc
  exact ⟨t, hrun, hpending, hacc, ht.active, ht.built, ht.clear⟩

/-- Settles O51: a checksum sequence on slot `L`; on the empty string the mask cancels the default initial value. -/
theorem crc32SequenceRespondsItsChecksum : Obligations.Crc32SequenceRespondsItsChecksum := by
  unfold Obligations.Crc32SequenceRespondsItsChecksum
  refine ⟨fun d init => checksumCommands_words .sell _ d _, fun s d init hs hf => runWords_crc32 hs hf d init,
    fun s t hs hf hrun => ?_, by decide, by decide⟩
  obtain ⟨u, hrun', hpending, -⟩ := runWords_crc32 hs hf [] none
  obtain rfl : t = u := by simpa [hrun] using hrun'
  exact hpending.trans (congrArg (s.pending ++ [·]) BitVec.xor_self)

/-- The select `TABLE32` uses makes the table of `p` active, in the slot the rule says (R134). -/
theorem selectsTable_table32Select {s : State} (hc : CacheInvariant s) (hf : s.fault = false) (p : Word) :
    ∃ sl t, SelectsTable (table32Select p) sl p s t ∧ (p = 0x04C11DB7 → sl = .m) ∧ (p = 0xEDB88320 → sl = .l) ∧
      (p ≠ 0x04C11DB7 → p ≠ 0xEDB88320 → sl = .g) := by
  unfold table32Select
  split
  next hm =>
    subst hm
    exact ⟨.m, _, selectsTable_selm hc hf, fun _ => rfl, fun h => absurd h (by decide), fun h => absurd rfl h⟩
  next hm =>
    split
    next hl =>
      subst hl
      exact ⟨.l, _, selectsTable_sell hc hf, fun h => absurd h hm, fun _ => rfl, fun _ h => absurd rfl h⟩
    next hl =>
      exact ⟨.g, _, selectsTable_selg hc hf p, fun h => absurd h hm, fun h => absurd h hl, fun _ _ => rfl⟩

/-- Settles O52: one select and the 256 reads, whichever slot the host's comparison chooses. -/
theorem table32SequenceRespondsTheTable : Obligations.Table32SequenceRespondsTheTable := by
  unfold Obligations.Table32SequenceRespondsTheTable
  refine ⟨fun p => congrArg₂ List.cons (encode_table32Select p) table32Reads_words, fun s p hs hf => ?_⟩
  obtain ⟨sl, _, hsel, hm, hl, hg⟩ := selectsTable_table32Select hs.cache hf p
  obtain ⟨t, hrun, hpending, hacc, ht⟩ := hsel.runWords_table hf
  refine ⟨t, sl, hrun, hpending.trans (congrArg (s.pending ++ ·) List.map_map), hm, hl, fun hpm hpl => ?_, ht.active,
    ht.built, hacc, ht.clear⟩
  obtain rfl := hg hpm hpl
  exact ⟨rfl, ht.poly⟩

/-- Settles O53: a checksum sequence on slot `G` under any polynomial; from four bytes on polynomial 0 has shifted every
bit out. -/
theorem hacker32SequenceRespondsItsChecksum : Obligations.Hacker32SequenceRespondsItsChecksum := by
  unfold Obligations.Hacker32SequenceRespondsItsChecksum
  refine ⟨fun d poly init xorout => checksumCommands_words (.selg _) _ d _, ?_,
    fun d a => ⟨fold_of_polynomial_zero a d, fun hd => ?_⟩, by decide⟩
  · rintro s d poly init xorout p hs hf rfl
    obtain ⟨t, hrun, hpending, hacc, ht⟩ :=
      (selectsTable_selg hs.cache hf (poly.getD Config.polyHackerDefault)).runWords_checksum hf
        (init.getD Config.initDefault) d (xorout.getD Config.xoroutHackerDefault)
    exact ⟨t, hrun, hpending, hacc, ht.active, ht.built, ht.poly, ht.clear⟩
  · exact (fold_of_polynomial_zero a d).trans (BitVec.shiftLeft_eq_zero (by omega))

end Sys2Proof.Machine
end

section
/-! SUPPORT. What commands, words and steps do to `FAULT` and `CAUSE` (spec/60_exceptions.md R151 to R157), said once for each of
`exec`, `acceptWord` and `step`. -/

namespace Sys2Proof.Machine

/-- A command that answers a next state either leaves `FAULT` and `CAUSE` or raises `NoTable` (R152). -/
theorem exec_keeps_fault_or_raises {i : Instr} {s t : State} (h : exec i s = .next t) :
    (t.fault = s.fault ∧ t.cause = s.cause) ∨
    ((∃ b, i = .byte b ∨ i = .rdtbl b) ∧ s.active = none ∧ t = raiseFault .noTable s) := by
  rcases exec_cases h with ⟨-, rfl⟩ | ⟨-, rfl⟩ | ⟨_, -, rfl⟩ | ⟨_, -, rfl⟩ | ⟨_, _, _, -, -, -, rfl⟩ | ⟨_, -, rfl⟩ |
    ⟨_, _, _, -, -, -, rfl⟩ | ⟨b, hb, ha, rfl⟩
  · exact .inl ⟨selectNamed_fault .., selectNamed_cause ..⟩
  · exact .inl ⟨selectNamed_fault .., selectNamed_cause ..⟩
  · exact .inl ⟨selectGeneric_fault .., selectGeneric_cause ..⟩
  · exact .inl ⟨rfl, rfl⟩
  · exact .inl ⟨rfl, rfl⟩
  · exact .inl ⟨rfl, rfl⟩
  · exact .inl ⟨rfl, rfl⟩
  · exact .inr ⟨⟨b, hb⟩, ha, rfl⟩

/-- No command sets `ACTIVE` back to `NONE` (R152). -/
theorem exec_active_ne_none {i : Instr} {s t : State} (h : exec i s = .next t) (ha : s.active ≠ none) :
    t.active ≠ none := by
  rcases exec_cases h with ⟨-, rfl⟩ | ⟨-, rfl⟩ | ⟨_, -, rfl⟩ | ⟨_, -, rfl⟩ | ⟨_, _, _, -, -, -, rfl⟩ | ⟨_, -, rfl⟩ |
    ⟨_, _, _, -, -, -, rfl⟩ | ⟨_, -, -, rfl⟩ <;> simp [ha]

/-- The whole state after an illegal word (R151, R153). -/
theorem acceptWord_illegal_eq {w : CmdWord} {s : State} {r : Reserved} (hf : s.fault = false)
    (hd : decode w = .illegal r) : acceptWord w s = .next { s with fault := true, cause := 1 } := by
  rw [acceptWord_of_illegal hf hd, raiseFault_of_clear _ _ hf]
  rfl

/-- When a word raises a fault, by its cause: at decode, or at the test of `ACTIVE` (R151, R152, R155). -/
def Cause.RaisedBy (k : Cause) (w : CmdWord) (s : State) : Prop :=
  (k = .illegalCommand ∧ ∃ r, decode w = .illegal r) ∨ (k = .noTable ∧ s.active = none)

/-- An accepted word either leaves `FAULT` and `CAUSE` or raises a fault in a state without one, and then those two are
all that changes (R153, R154). -/
theorem acceptWord_keeps_fault_or_raises {w : CmdWord} {s t : State} (h : acceptWord w s = .next t) :
    (t.fault = s.fault ∧ t.cause = s.cause) ∨
    (s.fault = false ∧ ∃ k : Cause, k.RaisedBy w s ∧ t = { s with fault := true, cause := k.code }) := by
  rcases acceptWord_cases w s with ⟨-, he⟩ | ⟨hf, hd, he⟩ | ⟨hf, i, -, he⟩ <;> rw [he] at h
  · cases h; exact .inl ⟨rfl, rfl⟩
  · cases h; exact .inr ⟨hf, .illegalCommand, .inl ⟨rfl, hd⟩, raiseFault_of_clear _ _ hf⟩
  · rcases exec_keeps_fault_or_raises h with hk | ⟨-, ha, rfl⟩
    · exact .inl hk
    · exact .inr ⟨hf, .noTable, .inr ⟨rfl, ha⟩, raiseFault_of_clear _ _ hf⟩

/-- A step leaves `FAULT` and `CAUSE`, or is a word that raises a fault, or is a reset (R153, R157). -/
theorem step_keeps_fault_or_raises_or_resets {s t : State} (h : step s = .next t) :
    (t.fault = s.fault ∧ t.cause = s.cause) ∨
    (s.fault = false ∧ ∃ (w : CmdWord) (rest : List HostEvent) (k : Cause), s.inbox = .command w :: rest ∧
      k.RaisedBy w s ∧ t = { s with inbox := rest, fault := true, cause := k.code }) ∨
    (∃ rest, s.inbox = .rst :: rest ∧ t = applyReset { s with inbox := rest }) := by
  rcases step_cases h with ⟨-, rfl⟩ | ⟨w, rest, hi, ha⟩ | ⟨rest, -, rfl⟩ | hr
  · exact .inl ⟨rfl, rfl⟩
  · rcases acceptWord_keeps_fault_or_raises ha with hk | ⟨hf, k, hk, rfl⟩
    · exact .inl hk
    · exact .inr (.inl ⟨hf, w, rest, k, hi, hk, rfl⟩)
  · exact .inl ⟨deliver_fault _, deliver_cause _⟩
  · exact .inr (.inr hr)

/-- From `FAULT = 1` a step keeps the recorded fault or is a reset (R154, R157). -/
theorem step_of_fault {s t : State} (h : step s = .next t) (hf : s.fault = true) :
    (t.fault = true ∧ t.cause = s.cause) ∨
    (∃ rest, s.inbox = .rst :: rest ∧ t = applyReset { s with inbox := rest }) := by
  rcases step_keeps_fault_or_raises_or_resets h with ⟨htf, htc⟩ | ⟨hf', -⟩ | hr
  · exact .inl ⟨htf.trans hf, htc⟩
  · simp [hf] at hf'
  · exact .inr hr

/-- Reset leaves every slot unbuilt (R170). -/
@[simp] theorem applyReset_built (s : State) (sl : Slot) : (applyReset s).built sl = false := by
  cases sl <;> rfl

end Sys2Proof.Machine
end

section
/-! PROOFS. The obligations on faults (spec/60_exceptions.md R151 to R154, R157): O16, O17, O18, O19, O21. -/

namespace Sys2Proof.Machine

/-- Settles O16: an illegal word is one whose step raises the fault at decode, and of the two causes a word can raise only
that one has code 1. -/
theorem illegalWordRaisesIllegalCommand : Obligations.IllegalWordRaisesIllegalCommand := by
  unfold Obligations.IllegalWordRaisesIllegalCommand
  intro s w rest hi hf
  rw [step_command hi]
  constructor
  · rintro ⟨r, hd⟩
    exact acceptWord_illegal_eq (s := { s with inbox := rest }) hf hd
  · intro t ht h1
    rcases acceptWord_keeps_fault_or_raises ht with ⟨-, hc⟩ | ⟨-, k, ⟨-, hd⟩ | ⟨rfl, -⟩, rfl⟩
    · exact .inl (hc ▸ h1)
    · exact .inr hd
    · exact absurd (show Cause.noTable.code = 1 from h1) (by decide)

/-- Settles O17, by what a command can do to `FAULT`, `CAUSE` and `ACTIVE`. -/
theorem noTableIsRaisedOnlyWithoutATable : Obligations.NoTableIsRaisedOnlyWithoutATable := by
  unfold Obligations.NoTableIsRaisedOnlyWithoutATable
  refine ⟨fun s b ha hf => ?_, fun i s t h hf ht => ?_, fun _ _ _ => exec_active_ne_none⟩
  · rw [execByte_of_none ha, execRdtbl_of_none ha, raiseFault_of_clear _ _ hf]
    exact ⟨rfl, rfl⟩
  · rcases exec_keeps_fault_or_raises h with ⟨hk, -⟩ | ⟨hb, ha, rfl⟩
    · simp [hk, hf] at ht
    · exact ⟨ha, by rw [raiseFault_of_clear _ _ hf]; rfl, hb⟩

/-- Settles O18: of the three things a step can do to `FAULT`, only a word that raises a fault sets it. -/
theorem faultEntryChangesNothingElse : Obligations.FaultEntryChangesNothingElse := by
  unfold Obligations.FaultEntryChangesNothingElse
  intro s t h hf ht
  rcases step_keeps_fault_or_raises_or_resets h with ⟨hk, -⟩ | ⟨-, w, rest, k, hi, hk, rfl⟩ | ⟨rest, -, rfl⟩
  · simp [hk, hf] at ht
  · exact ⟨w, rest, k, hi, rfl, hk, fun _ => ⟨rfl, rfl⟩, fun _ => acceptWord_of_fault rfl⟩
  · simp at ht

/-- Settles O19: a word is discarded before it is decoded, and no other event but reset touches `FAULT`. -/
theorem faultedBlockDiscardsEveryWord : Obligations.FaultedBlockDiscardsEveryWord := by
  unfold Obligations.FaultedBlockDiscardsEveryWord
  constructor
  · intro s w rest hi hf
    exact (step_command hi).trans (acceptWord_of_fault hf)
  · intro s t h hf hno
    rcases step_of_fault h hf with ⟨ht, -⟩ | ⟨rest, hi, -⟩
    · exact ht
    · exact absurd hi (hno rest)

/-- Settles O21: a step from `FAULT = 1` keeps `FAULT` and `CAUSE` or is a reset, which clears both and every flag. -/
theorem onlyResetClearsAFault : Obligations.OnlyResetClearsAFault := by
  unfold Obligations.OnlyResetClearsAFault
  constructor
  · intro s t h hf ht
    rcases step_of_fault h hf with ⟨ht', -⟩ | ⟨rest, hi, rfl⟩
    · simp [ht] at ht'
    · exact ⟨⟨rest, hi⟩, fun sl => applyReset_built _ sl⟩
  · intro s t h hf ht
    rcases step_of_fault h hf with ⟨-, hc⟩ | ⟨rest, -, rfl⟩
    · exact hc
    · simp at ht

end Sys2Proof.Machine
end

section
/-! PROOFS. The reset values the spec states (spec/70_reset_and_hazards.md R171): the obligation O7. -/

namespace Sys2Proof.Machine

/-- Settles O7, field by field: each value is what the reset state holds, `ACC` by way of the default initial value (R7). -/
theorem resetLeavesTheStatedValues : Obligations.ResetLeavesTheStatedValues := by
  unfold Obligations.ResetLeavesTheStatedValues
  have hacc : State.reset.acc = Config.initDefault := rfl
  exact ⟨rfl, rfl, rfl, rfl, hacc, rfl, rfl, rfl⟩

end Sys2Proof.Machine
end

section
/-! PROOFS. The decoder and the encoder are inverse to each other (spec/30_encoding.md R68, R70, R75) and the decode
check comes before the table check (spec/60_exceptions.md R155): O2, O3, O4, O1, O20. -/

namespace Sys2Proof.Machine

/-- A word decodes to a command exactly when it is the word of that command (R70). -/
theorem decode_eq_command_iff (w : CmdWord) (i : Instr) : decode w = .command i ↔ encode i = w := by
  constructor
  · intro hd
    have hlegal : ∃ m : Mnemonic, opField w = m.opcode ∧ m.form.legal (argField w) = true := by
      by_contra hno
      obtain ⟨r, hr⟩ := (decode_illegal_iff w).mpr fun m hop => by
        by_contra hl
        exact hno ⟨m, hop, by simpa using hl⟩
      simp [hd] at hr
    obtain ⟨m, hop, hl⟩ := hlegal
    obtain rfl : m.withArg (argField w) = i := by simpa [decode_of_legal hop hl] using hd
    rw [encode, mnemonic_withArg, arg_withArg hl, ← hop, mkWord_fields]
  · rintro rfl
    exact decode_encode i

/-- Settles O2: the two fields of an encoded command are its opcode and its operand, which give the command back. -/
theorem decodeOfEncodeIsTheCommand : Obligations.DecodeOfEncodeIsTheCommand := by
  unfold Obligations.DecodeOfEncodeIsTheCommand
  exact fun i _ => decode_encode i

/-- Settles O3: a word that decodes has a legal operand field, of which the command drops no bit. -/
theorem encodeOfDecodeIsTheWord : Obligations.EncodeOfDecodeIsTheWord := by
  unfold Obligations.EncodeOfDecodeIsTheWord
  exact fun w i => (decode_eq_command_iff w i).mp

/-- The words that decode to a command of an operation are those that agree with the operation's row (R68). -/
theorem decode_mnemonic_iff_row (w : CmdWord) (m : Mnemonic) :
    (∃ i, decode w = .command i ∧ i.mnemonic = m) ↔ w &&& m.rowMask = m.rowMatch := by
  rw [row_iff]
  constructor
  · rintro ⟨i, hd, rfl⟩
    rw [← (decode_eq_command_iff w i).mp hd, opField_encode, argField_encode]
    exact ⟨rfl, legal_arg i⟩
  · rintro ⟨hop, hl⟩
    exact ⟨_, decode_of_legal hop hl, mnemonic_withArg m _⟩

/-- Settles O4: a word that agreed with two rows would decode to a command of two operations. -/
theorem opcodeRowsSelectTheirCommands : Obligations.OpcodeRowsSelectTheirCommands := by
  unfold Obligations.OpcodeRowsSelectTheirCommands
  refine ⟨decode_mnemonic_iff_row, fun w m n hm hn => ?_⟩
  obtain ⟨i, hi, rfl⟩ := (decode_mnemonic_iff_row w m).mpr hm
  obtain ⟨j, hj, rfl⟩ := (decode_mnemonic_iff_row w n).mpr hn
  obtain rfl : i = j := by simpa [hi] using hj
  rfl

/-- Settles O1: the eleven words of the rule, evaluated. -/
theorem encodingExamplesDecode : Obligations.EncodingExamplesDecode := by
  unfold Obligations.EncodingExamplesDecode
  decide

/-- Settles O20: an illegal word is turned away before `ACTIVE` is read, and the legal word meets the test of
`ACTIVE`. -/
theorem decodeCheckComesFirst : Obligations.DecodeCheckComesFirst := by
  unfold Obligations.DecodeCheckComesFirst
  have hillegal : decode 0x0500000100 = .illegal .operandAboveByte := by decide
  have hbyte : decode 0x0500000031 = .command (.byte 0x31) := by decide
  refine ⟨fun s w r _ hf hd => acceptWord_illegal_eq hf hd, acceptWord_illegal_eq rfl hillegal, ?_⟩
  rw [acceptWord_of_command rfl hbyte, execByte_of_none rfl, raiseFault_of_clear _ _ rfl]
  rfl

end Sys2Proof.Machine
end

section
/-! PROOFS. The invariant of a reachable state (spec/10_state.md R32): reset meets it, every step keeps it, and from a
state that meets it the block always goes on: O9, O8, O14, O32. -/

namespace Sys2Proof.Machine

/-- The cache invariant said of all slots at once: a built slot holds the table of its polynomial, and the active
slot is built (R27, R32). -/
theorem cacheInvariant_iff (s : State) : CacheInvariant s ↔
    (∀ sl, s.built sl = true → ∀ i, tblRead sl i s = some (tableOf (polyOf sl s) i)) ∧
    ∀ sl, s.active = some sl → s.built sl = true := by
  constructor
  · intro hc
    refine ⟨fun sl hb => ?_, hc.activeBuilt⟩
    cases sl with
    | m => rw [polyOf_m, tableOf_polyM]; exact hc.tableM hb
    | l => rw [polyOf_l, tableOf_polyL]; exact hc.tableL hb
    | g => exact hc.tableG hb
  · rintro ⟨htable, hactive⟩
    exact ⟨fun hb i => by rw [htable .m hb, polyOf_m, tableOf_polyM]; rfl,
      fun hb i => by rw [htable .l hb, polyOf_l, tableOf_polyL]; rfl, htable .g, hactive⟩

/-- The two states agree in the table stores, the built flags, the tag and the active slot. -/
structure SameCache (s t : State) : Prop where
  mem : t.mem = s.mem
  built : ∀ sl, t.built sl = s.built sl
  gpoly : t.gpoly = s.gpoly
  active : t.active = s.active

theorem SameCache.tblRead_eq {s t : State} (h : SameCache s t) (sl : Slot) (i : Byte) :
    tblRead sl i t = tblRead sl i s := by
  rw [tblRead, tblRead, h.mem]

theorem SameCache.polyOf_eq {s t : State} (h : SameCache s t) (sl : Slot) : polyOf sl t = polyOf sl s := by
  cases sl with
  | m | l => rfl
  | g => exact h.gpoly

/-- The cache invariant speaks of nothing but what `SameCache` compares. -/
theorem SameCache.cacheInvariant {s t : State} (h : SameCache s t) (hc : CacheInvariant s) : CacheInvariant t := by
  rw [cacheInvariant_iff] at hc ⊢
  simpa only [h.built, h.tblRead_eq, h.polyOf_eq, h.active] using hc

theorem sameCache_setInbox (s : State) (q : List HostEvent) : SameCache s { s with inbox := q } :=
  ⟨rfl, fun sl => by cases sl <;> rfl, rfl, rfl⟩

theorem sameCache_setAcc (s : State) (a : Word) : SameCache s { s with acc := a } :=
  ⟨rfl, fun sl => by cases sl <;> rfl, rfl, rfl⟩

theorem sameCache_respond (s : State) (v : Word) : SameCache s (respond v s) :=
  ⟨rfl, fun sl => by cases sl <;> rfl, rfl, rfl⟩

theorem sameCache_raiseFault (s : State) (k : Cause) : SameCache s (raiseFault k s) :=
  ⟨raiseFault_mem .., fun sl => by cases sl <;> simp [State.built], raiseFault_gpoly .., raiseFault_active ..⟩

theorem sameCache_deliver (s : State) : SameCache s (deliver s) :=
  ⟨deliver_mem .., fun sl => by cases sl <;> simp [State.built], deliver_gpoly .., deliver_active ..⟩

/-- A command is a select, or leaves the cache as it was (R40, R101 to R103, R111 to R114). -/
theorem exec_select_or_sameCache {i : Instr} {s t : State} (h : exec i s = .next t) :
    (i = .selm ∧ t = selectNamed .m Config.polyM s) ∨ (i = .sell ∧ t = selectNamed .l Config.polyL s) ∨
    (∃ p, i = .selg p ∧ t = selectGeneric p s) ∨ SameCache s t := by
  rcases exec_cases h with hm | hl | hg | ⟨_, -, rfl⟩ | ⟨_, _, _, -, -, -, rfl⟩ | ⟨_, -, rfl⟩ |
    ⟨_, _, _, -, -, -, rfl⟩ | ⟨_, -, -, rfl⟩
  · exact .inl hm
  · exact .inr (.inl hl)
  · exact .inr (.inr (.inl hg))
  · exact .inr (.inr (.inr (sameCache_setAcc ..)))
  · exact .inr (.inr (.inr (sameCache_setAcc ..)))
  · exact .inr (.inr (.inr (sameCache_respond ..)))
  · exact .inr (.inr (.inr (sameCache_respond ..)))
  · exact .inr (.inr (.inr (sameCache_raiseFault ..)))

/-- A slot that is built after a named select, and that the select did not write, was built before it. -/
theorem built_of_selectNamed_kept {sl sl' : Slot} {p : Word} {s : State} (hb : (selectNamed sl p s).built sl' = true)
    (hkept : ¬ (sl' = sl ∧ s.built sl = false)) : s.built sl' = true := by
  by_cases hself : sl' = sl
  · simpa [hself] using hkept
  · simpa [hself] using hb

/-- A slot that is built after a generic select, and that the select did not write, was built before it. -/
theorem built_of_selectGeneric_kept {sl : Slot} {p : Word} {s : State} (hb : (selectGeneric p s).built sl = true)
    (hkept : ¬ (sl = .g ∧ genericMiss p s = true)) : s.built sl = true := by
  by_cases hself : sl = .g
  · obtain ⟨hbuilt, -⟩ := (genericMiss_eq_false p s).mp (by simpa [hself] using hkept)
    rwa [hself]
  · simpa [hself] using hb

/-- A select of a slot whose polynomial never changes keeps the cache invariant: a miss writes the very table of that
polynomial (R101, R102). -/
theorem cacheInvariant_selectNamed {sl : Slot} {p : Word} {s : State} (hp : ∀ u, polyOf sl u = p)
    (hc : CacheInvariant s) : CacheInvariant (selectNamed sl p s) := by
  rw [cacheInvariant_iff] at hc ⊢
  obtain ⟨htable, hactive⟩ := hc
  constructor
  · intro sl' hb i
    have hpoly : polyOf sl' (selectNamed sl p s) = polyOf sl' s := by cases sl' <;> simp
    rw [tblRead_selectNamed, hpoly]
    split
    next hmiss => rw [hmiss.1, hp]
    next hkept => exact htable sl' (built_of_selectNamed_kept hb hkept) i
  · intro sl' ha
    obtain rfl : sl = sl' := by simpa using ha
    exact selectNamed_built_self ..

/-- A generic select keeps the cache invariant: a miss writes the table of the new tag, a hit keeps tag and table
(R103). -/
theorem cacheInvariant_selectGeneric {s : State} (p : Word) (hc : CacheInvariant s) :
    CacheInvariant (selectGeneric p s) := by
  rw [cacheInvariant_iff] at hc ⊢
  obtain ⟨htable, hactive⟩ := hc
  constructor
  · intro sl hb i
    rw [tblRead_selectGeneric]
    split
    next hmiss => rw [hmiss.1, polyOf_g, selectGeneric_gpoly]
    next hkept =>
      have hpoly : polyOf sl (selectGeneric p s) = polyOf sl s := by
        cases sl with
        | m | l => rfl
        | g =>
          obtain ⟨-, hp⟩ := (genericMiss_eq_false p s).mp (by simpa using hkept)
          rw [polyOf_g, polyOf_g, selectGeneric_gpoly, hp]
      rw [hpoly]
      exact htable sl (built_of_selectGeneric_kept hb hkept) i
  · intro sl ha
    obtain rfl : Slot.g = sl := by simpa using ha
    exact selectGeneric_built_self ..

/-- Every command keeps the cache invariant (R32). -/
theorem exec_cacheInvariant {i : Instr} {s t : State} (h : exec i s = .next t) (hc : CacheInvariant s) :
    CacheInvariant t := by
  rcases exec_select_or_sameCache h with ⟨-, rfl⟩ | ⟨-, rfl⟩ | ⟨p, -, rfl⟩ | hsame
  · exact cacheInvariant_selectNamed (fun _ => rfl) hc
  · exact cacheInvariant_selectNamed (fun _ => rfl) hc
  · exact cacheInvariant_selectGeneric p hc
  · exact hsame.cacheInvariant hc

/-- Every command keeps the canonical form of the memory. -/
theorem exec_wf {i : Instr} {s t : State} (h : exec i s = .next t) (hw : s.mem.wf = true) : t.mem.wf = true := by
  rcases exec_select_or_sameCache h with ⟨-, rfl⟩ | ⟨-, rfl⟩ | ⟨p, -, rfl⟩ | hsame
  · exact wf_selectNamed _ _ _ hw
  · exact wf_selectNamed _ _ _ hw
  · exact wf_selectGeneric _ _ hw
  · rwa [hsame.mem]

/-- Every accepted word keeps the cache invariant and the canonical form of the memory. -/
theorem acceptWord_cache_wf {w : CmdWord} {s t : State} (h : acceptWord w s = .next t) (hc : CacheInvariant s)
    (hw : s.mem.wf = true) : CacheInvariant t ∧ t.mem.wf = true := by
  rcases acceptWord_cases w s with ⟨-, he⟩ | ⟨-, -, he⟩ | ⟨-, i, -, he⟩ <;> rw [he] at h
  · cases h
    exact ⟨hc, hw⟩
  · cases h
    exact ⟨(sameCache_raiseFault ..).cacheInvariant hc, by rwa [raiseFault_mem]⟩
  · exact ⟨exec_cacheInvariant h hc, exec_wf h hw⟩

/-- A state in which no slot is built and none is active meets the cache invariant. -/
theorem cacheInvariant_of_unbuilt {s : State} (hb : ∀ sl, s.built sl = false) (ha : s.active = none) :
    CacheInvariant s := by
  rw [cacheInvariant_iff]
  simp [hb, ha]

/-- Every step keeps the cache invariant and the canonical form of the memory (R32). -/
theorem step_cache_wf {s t : State} (h : step s = .next t) (hc : CacheInvariant s) (hw : s.mem.wf = true) :
    CacheInvariant t ∧ t.mem.wf = true := by
  rcases step_cases h with ⟨-, rfl⟩ | ⟨w, rest, -, ha⟩ | ⟨rest, -, rfl⟩ | ⟨rest, -, rfl⟩
  · exact ⟨hc, hw⟩
  · exact acceptWord_cache_wf ha ((sameCache_setInbox s rest).cacheInvariant hc) hw
  · refine ⟨(sameCache_deliver _).cacheInvariant ((sameCache_setInbox s rest).cacheInvariant hc), ?_⟩
    rwa [deliver_mem]
  · exact ⟨cacheInvariant_of_unbuilt (applyReset_built _) rfl, wf_reset⟩

/-- A fault records one of the two codes (R26, R156). -/
theorem Cause.code_legal (k : Cause) : k.code = 1 ∨ k.code = 2 := by
  cases k with
  | illegalCommand => exact .inl rfl
  | noTable => exact .inr rfl

/-- Every step keeps a legal `CAUSE` (R26, R156). -/
theorem step_causeLegal {s t : State} (h : step s = .next t) (hs : CauseLegal s) : CauseLegal t := by
  rcases step_keeps_fault_or_raises_or_resets h with ⟨hf, hk⟩ | ⟨-, _, _, k, -, -, rfl⟩ | ⟨_, -, rfl⟩
  · simpa only [CauseLegal, hf, hk] using hs
  · exact ⟨nofun, fun _ => k.code_legal⟩
  · exact ⟨fun _ => rfl, nofun⟩

/-- Settles O9: the three parts of the invariant, each kept by every kind of step. -/
theorem everyStepKeepsTheInvariant : Obligations.EveryStepKeepsTheInvariant := by
  unfold Obligations.EveryStepKeepsTheInvariant
  intro s t hs h
  obtain ⟨hc, hw⟩ := step_cache_wf h hs.cache hs.memory
  exact ⟨hc, step_causeLegal h hs.cause, hw⟩

/-- Settles O8: at reset no slot is built and none is active, so the cache invariant asks nothing of the tables. -/
theorem resetMeetsTheInvariant : Obligations.ResetMeetsTheInvariant := by
  unfold Obligations.ResetMeetsTheInvariant
  have hunbuilt (sl : Slot) : State.reset.built sl = false := by cases sl <;> rfl
  exact ⟨⟨cacheInvariant_of_unbuilt hunbuilt rfl, ⟨fun _ => rfl, nofun⟩, wf_reset⟩, fun sl i => by cases sl <;> rfl⟩

/-- Settles O32: the select leaves a state that meets the cache invariant and has an active slot. -/
theorem selectEndsWithItsTable : Obligations.SelectEndsWithItsTable := by
  unfold Obligations.SelectEndsWithItsTable
  intro i s t hc hsel h
  have hct := exec_cacheInvariant h hc
  obtain ⟨sl, ha⟩ : ∃ sl, t.active = some sl := by
    rcases hsel with rfl | rfl | ⟨p, rfl⟩ <;> cases h
    · exact ⟨.m, rfl⟩
    · exact ⟨.l, rfl⟩
    · exact ⟨.g, rfl⟩
  exact ⟨sl, ha, hct.activeBuilt sl ha, tblRead_active hct ha⟩

/-- A command stops only on an entry of the active slot without a value, and the cache invariant rules that out. -/
theorem exec_goes_on (i : Instr) {s : State} (hc : CacheInvariant s) : ∃ t, exec i s = .next t := by
  by_contra hstops
  obtain ⟨sl, k, ha, hnone, -⟩ := exec_stops (not_exists.mp hstops)
  simp [tblRead_active hc ha] at hnone

theorem acceptWord_goes_on (w : CmdWord) {s : State} (hc : CacheInvariant s) : ∃ t, acceptWord w s = .next t := by
  rcases acceptWord_cases w s with ⟨-, he⟩ | ⟨-, -, he⟩ | ⟨-, i, -, he⟩
  · exact ⟨_, he⟩
  · exact ⟨_, he⟩
  · rw [he]
    exact exec_goes_on i hc

theorem step_goes_on {s : State} (hc : CacheInvariant s) : ∃ t, step s = .next t := by
  cases hi : s.inbox with
  | nil => exact ⟨s, step_idle hi⟩
  | cons e rest =>
    rw [step_event hi]
    cases e with
    | command w => exact acceptWord_goes_on w ((sameCache_setInbox s rest).cacheInvariant hc)
    | takeResponse => exact ⟨_, rfl⟩
    | rst => exact ⟨_, rfl⟩

/-- Settles O14, by induction on the number of steps: each goes on and keeps the invariant. -/
theorem theBlockNeverStops : Obligations.TheBlockNeverStops := by
  unfold Obligations.TheBlockNeverStops
  intro n
  induction n with
  | zero => exact fun s _ => ⟨s, rfl⟩
  | succ n ih =>
    intro s hs
    obtain ⟨u, hu⟩ := step_goes_on hs.cache
    rw [run_next n hu]
    exact ih u (everyStepKeepsTheInvariant s u hs hu)

end Sys2Proof.Machine
end

section
/-! SUPPORT. Relations between two runs of the block under the same host, event by event: what has to be shown of a
relation for it to hold at every step (spec/10_state.md R33, R34). -/

namespace Sys2Proof.Machine

/-- `BYTE` on an active table whose entry holds no value (notes/assumptions/2.md). -/
theorem execByte_of_unwritten {b : Byte} {s : State} {sl : Slot} (ha : s.active = some sl)
    (hr : tblRead sl (updateIndex (convOf sl s) s.acc b) s = none) :
    exec (.byte b) s = .fault (.unwrittenEntry sl (updateIndex (convOf sl s) s.acc b)) := by
  simp only [exec, execByte, ha, hr]

/-- `RDTBL` on an active table whose entry holds no value (notes/assumptions/2.md). -/
theorem execRdtbl_of_unwritten {k : Byte} {s : State} {sl : Slot} (ha : s.active = some sl)
    (hr : tblRead sl k s = none) : exec (.rdtbl k) s = .fault (.unwrittenEntry sl k) := by
  simp only [exec, execRdtbl, ha, hr]

/-- No step is refused. -/
theorem step_not_refused (s : State) (r : Refusal) : step s ≠ .refused r := by
  cases hi : s.inbox with
  | nil => simp [step_idle hi]
  | cons e rest =>
    rw [step_event hi]
    cases e with
    | command w => exact acceptWord_not_refused w _ r
    | takeResponse => exact nofun
    | rst => exact nofun

/-- The code a fault leaves in `CAUSE` is decided by `FAULT` and `CAUSE` (R26). -/
theorem raiseFault_cause_congr {s t : State} (k : Cause) (hf : s.fault = t.fault) (hc : s.cause = t.cause) :
    (raiseFault k s).cause = (raiseFault k t).cause := by
  cases h : s.fault with
  | false => rw [raiseFault_of_clear k s h, raiseFault_of_clear k t (hf ▸ h)]
  | true => rw [raiseFault_of_fault k s h, raiseFault_of_fault k t (hf ▸ h), hc]

/-- A delivery is decided by the two ends of the response stream (R65). -/
theorem deliver_stream_congr {s t : State} (hp : s.pending = t.pending) (hd : s.delivered = t.delivered) :
    (deliver s).pending = (deliver t).pending ∧ (deliver s).delivered = (deliver t).delivered := by
  unfold deliver
  rw [← hp]
  split
  · exact ⟨hp, hd⟩
  · exact ⟨rfl, congrArg (· ++ [_]) hd⟩

/-- A relation of two outcomes gives any other that follows from it where both go on. -/
theorem SameOutcome.imp {r r' : State → State → Prop} {a b : Host.Outcome State Fault Refusal} (h : SameOutcome r a b)
    (himp : ∀ s t, a = .next s → b = .next t → r s t → r' s t) : SameOutcome r' a b := by
  cases a with
  | next s => cases b with
    | next t => exact himp s t rfl rfl h
    | fault | refused => exact h
  | fault => cases b <;> exact h
  | refused => cases b <;> exact h

/-- A relation that every part of a step keeps: under it the host's next event is the same on both sides. -/
structure StepCompatible (r : State → State → Prop) : Prop where
  inbox : ∀ {s t}, r s t → s.inbox = t.inbox
  fault : ∀ {s t}, r s t → s.fault = t.fault
  setInbox : ∀ {s t} (q), r s t → r { s with inbox := q } { t with inbox := q }
  raiseFault : ∀ {s t} (k), r s t → r (raiseFault k s) (raiseFault k t)
  deliver : ∀ {s t}, r s t → r (deliver s) (deliver t)
  applyReset : ∀ {s t}, r s t → r (applyReset s) (applyReset t)
  exec : ∀ {s t} (i), r s t → SameOutcome r (exec i s) (exec i t)

section TwoRuns
variable {r : State → State → Prop} (hr : StepCompatible r) {s t : State}
include hr

theorem StepCompatible.acceptWord (w : CmdWord) (h : r s t) : SameOutcome r (acceptWord w s) (acceptWord w t) := by
  have hfault := hr.fault h
  rcases acceptWord_cases w s with ⟨hf, he⟩ | ⟨hf, ⟨_, hd⟩, he⟩ | ⟨hf, i, hd, he⟩ <;> rw [he] <;> rw [hfault] at hf
  · rw [acceptWord_of_fault hf]
    exact h
  · rw [acceptWord_of_illegal hf hd]
    exact hr.raiseFault _ h
  · rw [acceptWord_of_command hf hd]
    exact hr.exec i h

theorem StepCompatible.step (h : r s t) : SameOutcome r (step s) (step t) := by
  have hinbox := hr.inbox h
  cases hs : s.inbox with
  | nil =>
    rw [step_idle hs, step_idle (hinbox ▸ hs)]
    exact h
  | cons e rest =>
    rw [step_event hs, step_event (hinbox ▸ hs)]
    have hrest := hr.setInbox rest h
    cases e with
    | command w => exact hr.acceptWord w hrest
    | takeResponse => exact hr.deliver hrest
    | rst => exact hr.applyReset hrest

/-- Two runs of a number of steps from related states end in related states, or stop for the same reason. -/
theorem StepCompatible.run (n : Nat) (h : r s t) :
    SameOutcome r (Sys2Proof.core.run n s) (Sys2Proof.core.run n t) := by
  induction n generalizing s t with
  | zero => exact h
  | succ n ih =>
    have hstep := hr.step h
    cases hs : Machine.step s with
    | next s' =>
      cases ht : Machine.step t with
      | next t' =>
        rw [run_next n hs, run_next n ht]
        exact ih (by rwa [hs, ht] at hstep)
      | fault | refused => rw [hs, ht] at hstep; exact hstep.elim
    | fault e =>
      cases ht : Machine.step t with
      | fault f =>
        rw [run_fault n hs, run_fault n ht]
        rwa [hs, ht] at hstep
      | next | refused => rw [hs, ht] at hstep; exact hstep.elim
    | refused e => exact absurd hs (step_not_refused s e)
end TwoRuns

end Sys2Proof.Machine
end

section
/-! PROOFS. What the host can tell of the cache, and what the block reads of unspecified elements (spec/10_state.md
R33, R34, spec/70_reset_and_hazards.md R183): O56, O57. -/

namespace Sys2Proof.Machine

section SameToHost
variable {s t : State} (h : SameToHost s t)
include h

/-- The polynomial of the active slot is the same on both sides: only the tag of an inactive slot may differ. -/
theorem SameToHost.polyOf_eq {sl : Slot} (ha : s.active = some sl) : polyOf sl s = polyOf sl t := by
  cases sl with
  | m | l => rfl
  | g => exact h.gpoly ha

theorem SameToHost.setInbox (q : List HostEvent) : SameToHost { s with inbox := q } { t with inbox := q } :=
  ⟨h.active, h.gpoly, h.acc, h.fault, h.cause, rfl, h.pending, h.delivered⟩

theorem SameToHost.setAcc (a : Word) : SameToHost { s with acc := a } { t with acc := a } :=
  ⟨h.active, h.gpoly, rfl, h.fault, h.cause, h.inbox, h.pending, h.delivered⟩

theorem SameToHost.respond (v : Word) : SameToHost (respond v s) (respond v t) :=
  ⟨h.active, h.gpoly, h.acc, h.fault, h.cause, h.inbox, congrArg (· ++ [v]) h.pending, h.delivered⟩

theorem SameToHost.raiseFault (k : Cause) : SameToHost (raiseFault k s) (raiseFault k t) where
  active := by simp [h.active]
  gpoly ha := by simpa using h.gpoly (by simpa using ha)
  acc := by simp [h.acc]
  fault := by simp
  cause := raiseFault_cause_congr k h.fault h.cause
  inbox := by simp [h.inbox]
  pending := by simp [h.pending]
  delivered := by simp [h.delivered]

theorem SameToHost.deliver : SameToHost (deliver s) (deliver t) where
  active := by simp [h.active]
  gpoly ha := by simpa using h.gpoly (by simpa using ha)
  acc := by simp [h.acc]
  fault := by simp [h.fault]
  cause := by simp [h.cause]
  inbox := by simp [h.inbox]
  pending := (deliver_stream_congr h.pending h.delivered).1
  delivered := (deliver_stream_congr h.pending h.delivered).2

theorem SameToHost.applyReset : SameToHost (applyReset s) (applyReset t) :=
  ⟨rfl, fun _ => rfl, rfl, rfl, rfl, h.inbox, rfl, h.delivered⟩

theorem SameToHost.selectNamed {sl : Slot} (hsl : sl ≠ .g) (p : Word) :
    SameToHost (selectNamed sl p s) (selectNamed sl p t) := by
  constructor <;> simp [h.acc, h.fault, h.cause, h.inbox, h.pending, h.delivered, hsl]

theorem SameToHost.selectGeneric (p : Word) : SameToHost (selectGeneric p s) (selectGeneric p t) := by
  constructor <;> simp [h.acc, h.fault, h.cause, h.inbox, h.pending, h.delivered]

/-- A command has the same effect for the host on both sides: where it reads an entry, the cache invariant makes that
entry the one of the active polynomial, whether or not a select of either side hit (R33). -/
theorem SameToHost.exec (hs : CacheInvariant s) (ht : CacheInvariant t) (i : Instr) :
    SameOutcome SameToHost (exec i s) (exec i t) := by
  cases i with
  | selm => exact h.selectNamed (by decide) _
  | sell => exact h.selectNamed (by decide) _
  | selg p => exact h.selectGeneric p
  | setacc v => exact h.setAcc v
  | getcrc x =>
    show SameToHost (Machine.respond (s.acc ^^^ x) s) (Machine.respond (t.acc ^^^ x) t)
    rw [h.acc]
    exact h.respond _
  | byte b =>
    cases ha : s.active with
    | none =>
      rw [execByte_of_none ha, execByte_of_none (h.active ▸ ha)]
      exact h.raiseFault _
    | some sl =>
      rw [execByte_of_update hs ha rfl, execByte_of_update ht (h.active ▸ ha) rfl, convOf, convOf, h.polyOf_eq ha,
        h.acc]
      exact h.setAcc _
  | rdtbl k =>
    cases ha : s.active with
    | none =>
      rw [execRdtbl_of_none ha, execRdtbl_of_none (h.active ▸ ha)]
      exact h.raiseFault _
    | some sl =>
      rw [execRdtbl_of_active hs ha, execRdtbl_of_active ht (h.active ▸ ha), convOf, convOf, h.polyOf_eq ha]
      exact h.respond _
end SameToHost

/-- Two states the host cannot tell apart, each with the tables its flags promise. -/
structure SameToHostCached (s t : State) : Prop where
  left : CacheInvariant s
  right : CacheInvariant t
  same : SameToHost s t

theorem sameToHostCached_stepCompatible : StepCompatible SameToHostCached where
  inbox h := h.same.inbox
  fault h := h.same.fault
  setInbox q h :=
    ⟨(sameCache_setInbox _ q).cacheInvariant h.left, (sameCache_setInbox _ q).cacheInvariant h.right, h.same.setInbox q⟩
  raiseFault k h :=
    ⟨(sameCache_raiseFault _ k).cacheInvariant h.left, (sameCache_raiseFault _ k).cacheInvariant h.right,
      h.same.raiseFault k⟩
  deliver h :=
    ⟨(sameCache_deliver _).cacheInvariant h.left, (sameCache_deliver _).cacheInvariant h.right, h.same.deliver⟩
  applyReset h :=
    ⟨cacheInvariant_of_unbuilt (applyReset_built _) rfl, cacheInvariant_of_unbuilt (applyReset_built _) rfl,
      h.same.applyReset⟩
  exec i h := (h.same.exec h.left h.right i).imp fun _ _ hs ht hsame =>
    ⟨exec_cacheInvariant hs h.left, exec_cacheInvariant ht h.right, hsame⟩

/-- Settles O56: being the same to the host, with the tables the flags promise on both sides, is kept by every step.
-/
theorem cacheStateIsInvisibleToTheHost : Obligations.CacheStateIsInvisibleToTheHost := by
  unfold Obligations.CacheStateIsInvisibleToTheHost
  intro n s t hs ht h
  exact (sameToHostCached_stepCompatible.run n ⟨hs.cache, ht.cache, h⟩).imp fun _ _ _ _ hsame => hsame.same

/-- The active slot, where there is one, is built (R32, clause d). -/
def ActiveBuilt (s : State) : Prop :=
  ∀ sl, s.active = some sl → s.built sl = true

theorem SameCache.activeBuilt {s t : State} (h : SameCache s t) (hs : ActiveBuilt s) : ActiveBuilt t := by
  simpa only [ActiveBuilt, h.active, h.built] using hs

/-- Every command keeps the active slot built: a select builds the slot it makes active. -/
theorem exec_activeBuilt {i : Instr} {s t : State} (h : exec i s = .next t) (hs : ActiveBuilt s) : ActiveBuilt t := by
  rcases exec_select_or_sameCache h with ⟨-, rfl⟩ | ⟨-, rfl⟩ | ⟨p, -, rfl⟩ | hsame
  · intro sl ha
    obtain rfl : Slot.m = sl := by simpa using ha
    exact selectNamed_built_self ..
  · intro sl ha
    obtain rfl : Slot.l = sl := by simpa using ha
    exact selectNamed_built_self ..
  · intro sl ha
    obtain rfl : Slot.g = sl := by simpa using ha
    exact selectGeneric_built_self ..
  · exact hsame.activeBuilt hs

section Agree
variable {s t : State} (h : AgreeWhereSpecified s t)
include h

/-- Updates that leave both caches keep the agreement of the caches; the other fields are compared anew. -/
theorem AgreeWhereSpecified.of_sameCache {s' t' : State} (hs : SameCache s s') (ht : SameCache t t')
    (hacc : s'.acc = t'.acc) (hfault : s'.fault = t'.fault) (hcause : s'.cause = t'.cause)
    (hinbox : s'.inbox = t'.inbox) (hpending : s'.pending = t'.pending) (hdelivered : s'.delivered = t'.delivered) :
    AgreeWhereSpecified s' t' where
  built sl := by rw [hs.built, ht.built, h.built]
  table sl i hb := by
    rw [hs.tblRead_eq, ht.tblRead_eq]
    exact h.table sl i ((hs.built sl).symm.trans hb)
  gpoly hb := by
    rw [hs.gpoly, ht.gpoly]
    exact h.gpoly ((hs.built .g).symm.trans hb)
  active := by rw [hs.active, ht.active, h.active]
  acc := hacc
  fault := hfault
  cause := hcause
  inbox := hinbox
  pending := hpending
  delivered := hdelivered

theorem AgreeWhereSpecified.polyOf_eq {sl : Slot} (hb : s.built sl = true) : polyOf sl s = polyOf sl t := by
  cases sl with
  | m | l => rfl
  | g => exact h.gpoly hb

theorem AgreeWhereSpecified.setInbox (q : List HostEvent) :
    AgreeWhereSpecified { s with inbox := q } { t with inbox := q } :=
  h.of_sameCache (sameCache_setInbox ..) (sameCache_setInbox ..) h.acc h.fault h.cause rfl h.pending h.delivered

theorem AgreeWhereSpecified.setAcc (a : Word) : AgreeWhereSpecified { s with acc := a } { t with acc := a } :=
  h.of_sameCache (sameCache_setAcc ..) (sameCache_setAcc ..) rfl h.fault h.cause h.inbox h.pending h.delivered

theorem AgreeWhereSpecified.respond (v : Word) : AgreeWhereSpecified (respond v s) (respond v t) :=
  h.of_sameCache (sameCache_respond ..) (sameCache_respond ..) h.acc h.fault h.cause h.inbox
    (congrArg (· ++ [v]) h.pending) h.delivered

theorem AgreeWhereSpecified.raiseFault (k : Cause) : AgreeWhereSpecified (raiseFault k s) (raiseFault k t) :=
  h.of_sameCache (sameCache_raiseFault ..) (sameCache_raiseFault ..) (by simp [h.acc]) (by simp)
    (raiseFault_cause_congr k h.fault h.cause) (by simp [h.inbox]) (by simp [h.pending]) (by simp [h.delivered])

theorem AgreeWhereSpecified.deliver : AgreeWhereSpecified (deliver s) (deliver t) :=
  have hstream := deliver_stream_congr h.pending h.delivered
  h.of_sameCache (sameCache_deliver _) (sameCache_deliver _) (by simp [h.acc]) (by simp [h.fault])
    (by simp [h.cause]) (by simp [h.inbox]) hstream.1 hstream.2

theorem AgreeWhereSpecified.applyReset : AgreeWhereSpecified (applyReset s) (applyReset t) where
  built sl := by simp
  table sl i hb := by simp at hb
  gpoly _ := rfl
  active := rfl
  acc := rfl
  fault := rfl
  cause := rfl
  inbox := h.inbox
  pending := rfl
  delivered := h.delivered

/-- A named select reads nothing but its slot's flag: the entries that count afterwards are those it wrote, or stand
in a slot that was built. -/
theorem AgreeWhereSpecified.selectNamed {sl : Slot} (hsl : sl ≠ .g) (p : Word) :
    AgreeWhereSpecified (selectNamed sl p s) (selectNamed sl p t) where
  built sl' := by simp [h.built]
  table sl' i hb := by
    rw [tblRead_selectNamed, tblRead_selectNamed, ← h.built sl]
    split
    · rfl
    next hkept => exact h.table sl' i (built_of_selectNamed_kept hb hkept)
  gpoly hb := by
    have hbuilt : (Machine.selectNamed sl p s).built .g = true := hb
    rw [selectNamed_built_other sl p s hsl.symm] at hbuilt
    rw [selectNamed_gpoly, selectNamed_gpoly]
    exact h.gpoly hbuilt
  active := by simp
  acc := by simp [h.acc]
  fault := by simp [h.fault]
  cause := by simp [h.cause]
  inbox := by simp [h.inbox]
  pending := by simp [h.pending]
  delivered := by simp [h.delivered]

/-- The miss test of `SELG` reads the tag only when the slot is built (R103, R106). -/
theorem AgreeWhereSpecified.genericMiss_eq (p : Word) : genericMiss p s = genericMiss p t := by
  have hb : s.builtG = t.builtG := h.built .g
  cases hg : s.builtG with
  | false => simp [genericMiss, ← hb, hg]
  | true => rw [genericMiss, genericMiss, hb, h.gpoly hg]

theorem AgreeWhereSpecified.selectGeneric (p : Word) :
    AgreeWhereSpecified (selectGeneric p s) (selectGeneric p t) where
  built sl := by simp [h.built]
  table sl i hb := by
    rw [tblRead_selectGeneric, tblRead_selectGeneric, ← h.genericMiss_eq]
    split
    · rfl
    next hkept => exact h.table sl i (built_of_selectGeneric_kept hb hkept)
  gpoly _ := by simp
  active := by simp
  acc := by simp [h.acc]
  fault := by simp [h.fault]
  cause := by simp [h.cause]
  inbox := by simp [h.inbox]
  pending := by simp [h.pending]
  delivered := by simp [h.delivered]

/-- A command reads an entry of the active slot only, which is built, so both sides read the same value, or none. -/
theorem AgreeWhereSpecified.exec (hs : ActiveBuilt s) (i : Instr) :
    SameOutcome AgreeWhereSpecified (exec i s) (exec i t) := by
  cases i with
  | selm => exact h.selectNamed (by decide) _
  | sell => exact h.selectNamed (by decide) _
  | selg p => exact h.selectGeneric p
  | setacc v => exact h.setAcc v
  | getcrc x =>
    show AgreeWhereSpecified (Machine.respond (s.acc ^^^ x) s) (Machine.respond (t.acc ^^^ x) t)
    rw [h.acc]
    exact h.respond _
  | byte b =>
    cases ha : s.active with
    | none =>
      rw [execByte_of_none ha, execByte_of_none (h.active ▸ ha)]
      exact h.raiseFault _
    | some sl =>
      have hat : t.active = some sl := h.active ▸ ha
      have hconv : convOf sl s = convOf sl t := congrArg classify (h.polyOf_eq (hs sl ha))
      have hread := h.table sl (updateIndex (convOf sl s) s.acc b) (hs sl ha)
      cases hr : tblRead sl (updateIndex (convOf sl s) s.acc b) s with
      | none =>
        rw [execByte_of_unwritten ha hr, execByte_of_unwritten hat (by rw [← hconv, ← h.acc, ← hread, hr]),
          hconv, h.acc]
        rfl
      | some e =>
        rw [execByte_of_read ha hr, execByte_of_read hat (by rw [← hconv, ← h.acc, ← hread, hr]), hconv, h.acc]
        exact h.setAcc _
  | rdtbl k =>
    cases ha : s.active with
    | none =>
      rw [execRdtbl_of_none ha, execRdtbl_of_none (h.active ▸ ha)]
      exact h.raiseFault _
    | some sl =>
      have hat : t.active = some sl := h.active ▸ ha
      have hread := h.table sl k (hs sl ha)
      cases hr : tblRead sl k s with
      | none =>
        rw [execRdtbl_of_unwritten ha hr, execRdtbl_of_unwritten hat (hread ▸ hr)]
        rfl
      | some e =>
        rw [execRdtbl_of_read ha hr, execRdtbl_of_read hat (hread ▸ hr)]
        exact h.respond e
end Agree

/-- Two states that agree where a value is specified, with the active slot built. -/
structure AgreeActiveBuilt (s t : State) : Prop where
  activeBuilt : ActiveBuilt s
  agree : AgreeWhereSpecified s t

theorem agreeActiveBuilt_stepCompatible : StepCompatible AgreeActiveBuilt where
  inbox h := h.agree.inbox
  fault h := h.agree.fault
  setInbox q h := ⟨(sameCache_setInbox _ q).activeBuilt h.activeBuilt, h.agree.setInbox q⟩
  raiseFault k h := ⟨(sameCache_raiseFault _ k).activeBuilt h.activeBuilt, h.agree.raiseFault k⟩
  deliver h := ⟨(sameCache_deliver _).activeBuilt h.activeBuilt, h.agree.deliver⟩
  applyReset h := ⟨nofun, h.agree.applyReset⟩
  exec i h := (h.agree.exec h.activeBuilt i).imp fun _ _ hs _ hagree => ⟨exec_activeBuilt hs h.activeBuilt, hagree⟩

/-- Settles O57: agreement where a value is specified, with the active slot built, is kept by every step. -/
theorem unspecifiedElementsAreNeverRead : Obligations.UnspecifiedElementsAreNeverRead := by
  unfold Obligations.UnspecifiedElementsAreNeverRead
  intro n s t hs h
  exact (agreeActiveBuilt_stepCompatible.run n ⟨hs, h⟩).imp fun _ _ _ _ hagree => hagree.agree

end Sys2Proof.Machine
end

section
/-! PROOFS. The step by what the host does next, and the output ports (spec/30_encoding.md R61 to R65,
spec/70_reset_and_hazards.md R170, R179): O10, O12, O13, O15. -/

namespace Sys2Proof.Machine

/-- Settles O10: the step takes the word off the inbox and accepts it, and the word is that of a command. -/
theorem stepRunsTheDecodedCommand : Obligations.StepRunsTheDecodedCommand := by
  unfold Obligations.StepRunsTheDecodedCommand
  intro s w rest i hi hf hd _
  exact (step_command hi).trans (acceptWord_of_command (s := { s with inbox := rest }) hf hd)

/-- With no response pending a delivery does nothing (R65). -/
theorem deliver_of_nil {s : State} (h : s.pending = []) : deliver s = s := by
  simp only [deliver, h]

/-- A delivery takes the oldest pending response (R65). -/
theorem deliver_of_cons {s : State} {v : Word} {vs : List Word} (h : s.pending = v :: vs) :
    deliver s = { s with pending := vs, delivered := s.delivered ++ [v] } := by
  simp only [deliver, h]

/-- Settles O12, by the event: none, or the acceptance of a response with one pending or none. -/
theorem blockActsOnlyOnTheHost : Obligations.BlockActsOnlyOnTheHost := by
  unfold Obligations.BlockActsOnlyOnTheHost
  refine ⟨fun _ => step_idle, fun s v vs rest hi hp => ?_, fun s rest hi hp => ?_⟩
  · exact (step_event hi).trans (congrArg _ (deliver_of_cons (s := { s with inbox := rest }) hp))
  · exact (step_event hi).trans (congrArg _ (deliver_of_nil (s := { s with inbox := rest }) hp))

/-- Settles O13: a reset leaves the reset state but for the two lists that are the host's. -/
theorem resetPinRestoresTheResetState : Obligations.ResetPinRestoresTheResetState := by
  unfold Obligations.ResetPinRestoresTheResetState
  intro s rest hi
  refine ⟨applyReset { s with inbox := rest }, step_event hi, ?_⟩
  simp [Config.initDefault]

/-- Settles O15, port by port; a valid response is the head of the pending ones. -/
theorem portsShowFaultAndTheOldestResponse : Obligations.PortsShowFaultAndTheOldestResponse := by
  unfold Obligations.PortsShowFaultAndTheOldestResponse
  refine fun s r => ⟨rfl, rfl, rfl, rfl, ?_⟩
  cases hp : s.pending with
  | nil => simp [pins, hp]
  | cons v vs => simp [pins, hp]

end Sys2Proof.Machine
end

section
/-! PROOFS. The frames of the commands and the response channel (spec/30_encoding.md R65, spec/41_table_cache.md
R101 to R103, spec/42_crc_engine.md R111 to R114): O43, O44, O45. -/

namespace Sys2Proof.Machine

/-- The commands that may respond (R65). -/
def MayRespond (i : Instr) : Prop :=
  (∃ x, i = .getcrc x) ∨ ∃ k, i = .rdtbl k

theorem not_mayRespond_iff (i : Instr) : ¬ MayRespond i ↔ (∀ x, i ≠ .getcrc x) ∧ ∀ k, i ≠ .rdtbl k := by
  simp [MayRespond]

/-- A command that goes on is one that never responds and leaves the pending responses, or responds one word and does
nothing else, or raises `NoTable` (R65, R152). -/
theorem exec_response_cases {i : Instr} {s t : State} (h : exec i s = .next t) :
    (¬ MayRespond i ∧ t.pending = s.pending) ∨ (MayRespond i ∧ ∃ v, t = respond v s) ∨
    t = raiseFault .noTable s := by
  rcases exec_cases h with ⟨rfl, rfl⟩ | ⟨rfl, rfl⟩ | ⟨p, rfl, rfl⟩ | ⟨v, rfl, rfl⟩ | ⟨b, _, _, rfl, -, -, rfl⟩ |
    ⟨x, rfl, rfl⟩ | ⟨k, _, e, rfl, -, -, rfl⟩ | ⟨_, -, -, rfl⟩
  · exact .inl ⟨by simp [not_mayRespond_iff], selectNamed_pending ..⟩
  · exact .inl ⟨by simp [not_mayRespond_iff], selectNamed_pending ..⟩
  · exact .inl ⟨by simp [not_mayRespond_iff], selectGeneric_pending ..⟩
  · exact .inl ⟨by simp [not_mayRespond_iff], rfl⟩
  · exact .inl ⟨by simp [not_mayRespond_iff], rfl⟩
  · exact .inr (.inl ⟨.inl ⟨x, rfl⟩, _, rfl⟩)
  · exact .inr (.inl ⟨.inr ⟨k, rfl⟩, e, rfl⟩)
  · exact .inr (.inr rfl)

/-- No command delivers a response (R65). -/
theorem exec_delivered {i : Instr} {s t : State} (h : exec i s = .next t) : t.delivered = s.delivered := by
  rcases exec_cases h with ⟨-, rfl⟩ | ⟨-, rfl⟩ | ⟨_, -, rfl⟩ | ⟨_, -, rfl⟩ | ⟨_, _, _, -, -, -, rfl⟩ | ⟨_, -, rfl⟩ |
    ⟨_, _, _, -, -, -, rfl⟩ | ⟨_, -, -, rfl⟩ <;> simp

/-- Settles O43, by the three things a command can do to the response channel. -/
theorem exactlyGetcrcAndRdtblRespond : Obligations.ExactlyGetcrcAndRdtblRespond := by
  unfold Obligations.ExactlyGetcrcAndRdtblRespond
  intro i s t hf h
  refine ⟨exec_delivered h, ?_⟩
  rw [← not_mayRespond_iff]
  rcases exec_response_cases h with ⟨hno, hp⟩ | ⟨hyes, v, rfl⟩ | rfl
  · exact ⟨fun _ => hp, fun _ hyes => absurd hyes hno, fun _ => hp⟩
  · refine ⟨fun ht => ?_, fun _ _ => ⟨v, rfl⟩, fun hno => absurd hyes hno⟩
    simp [hf] at ht
  · exact ⟨fun _ => raiseFault_pending .., fun ht => by simp at ht, fun _ => raiseFault_pending ..⟩

/-- A command that may respond leaves `ACC`, also when it raises a fault (R113, R114). -/
theorem exec_acc_of_mayRespond {i : Instr} {s t : State} (h : exec i s = .next t) (hi : MayRespond i) :
    t.acc = s.acc := by
  rcases exec_response_cases h with ⟨hno, -⟩ | ⟨-, v, rfl⟩ | rfl
  · exact absurd hi hno
  · rfl
  · exact raiseFault_acc ..

/-- Settles O44: an engine command leaves the cache; the only other way it changes `FAULT` is to raise `NoTable`. -/
theorem engineCommandsFrame : Obligations.EngineCommandsFrame := by
  unfold Obligations.EngineCommandsFrame
  intro i s t hi h
  have hcache : SameCache s t := by
    rcases exec_select_or_sameCache h with ⟨rfl, -⟩ | ⟨rfl, -⟩ | ⟨p, rfl, -⟩ | hsame
    · simp at hi
    · simp at hi
    · simp at hi
    · exact hsame
  refine ⟨hcache.tblRead_eq, hcache.built, hcache.gpoly, hcache.active, exec_inbox h, exec_delivered h,
    exec_acc_of_mayRespond h, ?_⟩
  rcases exec_keeps_fault_or_raises h with ⟨hf, hk⟩ | ⟨-, -, rfl⟩
  · exact ⟨fun _ => hk, fun hne => absurd hf hne⟩
  · refine ⟨fun hsame => ?_, fun _ => ⟨raiseFault_acc .., raiseFault_pending ..⟩⟩
    rw [raiseFault_of_fault _ _ (hsame.symm.trans (raiseFault_fault ..))]

/-- On a hit a named select leaves its own entries too (R101, R102). -/
theorem tblRead_selectNamed_hit (sl : Slot) (p : Word) (s : State) (h : s.built sl = true) (k : Byte) :
    tblRead sl k (selectNamed sl p s) = tblRead sl k s := by
  rw [tblRead, tblRead, selectNamed_mem_hit sl p s h]

/-- On a hit a generic select leaves its own entries too (R103). -/
theorem tblRead_selectGeneric_hit (p : Word) (s : State) (h : genericMiss p s = false) (k : Byte) :
    tblRead .g k (selectGeneric p s) = tblRead .g k s := by
  rw [tblRead, tblRead, selectGeneric_mem_hit p s h]

/-- Settles O45: a select is a named or the generic one, and each has its frame. -/
theorem selectCommandsFrame : Obligations.SelectCommandsFrame := by
  unfold Obligations.SelectCommandsFrame
  intro i sl s t hi h
  have hkind : (∃ p, t = selectNamed sl p s ∧ isMiss i s = !s.built sl) ∨
      ∃ p, sl = .g ∧ t = selectGeneric p s ∧ isMiss i s = genericMiss p s := by
    rcases hi with ⟨rfl, rfl⟩ | ⟨rfl, rfl⟩ | ⟨p, rfl, rfl⟩ <;> cases h
    · exact .inl ⟨_, rfl, rfl⟩
    · exact .inl ⟨_, rfl, rfl⟩
    · exact .inr ⟨p, rfl, rfl, rfl⟩
  rcases hkind with ⟨p, rfl, hmiss⟩ | ⟨p, rfl, rfl, hmiss⟩ <;> rw [hmiss]
  · obtain ⟨hgpoly, hregs⟩ := selectNamed_registers sl p s
    exact ⟨fun _ k hne => tblRead_selectNamed_other sl p s hne k,
      fun hhit => tblRead_selectNamed_hit sl p s (by simpa using hhit),
      fun _ hne => selectNamed_built_other sl p s hne, fun _ => hgpoly, hregs⟩
  · exact ⟨fun _ k hne => tblRead_selectGeneric_other p s hne k, tblRead_selectGeneric_hit p s,
      fun _ hne => selectGeneric_built_other p s hne, fun hne => absurd rfl hne, selectGeneric_registers p s⟩

end Sys2Proof.Machine
end

section
/-! PROOFS. The cache is purely an optimization (spec/41_table_cache.md R104 to R107, spec/70_reset_and_hazards.md
R177): O33, O34, O36, O46. -/

namespace Sys2Proof.Machine

/-- Where a built slot holds the table of `p`, a named select is a build and a selection: a build of a table that is
there changes nothing (R104). -/
theorem selectNamed_eq_rebuild {sl : Slot} {p : Word} {s : State} (hw : s.mem.wf = true)
    (htable : s.built sl = true → ∀ i, tblRead sl i s = some (tableOf p i)) :
    selectNamed sl p s = (build sl p s).activate sl := by
  unfold selectNamed
  split
  next hb => rw [build_of_read sl p s hw hb (htable hb)]
  next => rfl

/-- Writing the tag that is there changes nothing. -/
theorem setTag_of_gpoly {p : Word} {s : State} (h : s.gpoly = p) : s.setTag p = s := by
  subst h
  rfl

/-- Where a built generic slot holds the table of its tag, a generic select is a build, a tag and a selection
(R104). -/
theorem selectGeneric_eq_rebuild (p : Word) {s : State} (hw : s.mem.wf = true)
    (htable : s.builtG = true → ∀ i, tblRead .g i s = some (tableOf s.gpoly i)) :
    selectGeneric p s = ((build .g p s).setTag p).activate .g := by
  unfold selectGeneric
  split
  next => rfl
  next hhit =>
    obtain ⟨hb, rfl⟩ := (genericMiss_eq_false p s).mp (by simpa using hhit)
    rw [build_of_read .g s.gpoly s hw hb (htable hb), setTag_of_gpoly rfl]

/-- Settles O33: by the invariant every built slot holds the table that a build would write. -/
theorem alwaysRebuildingChangesNothing : Obligations.AlwaysRebuildingChangesNothing := by
  unfold Obligations.AlwaysRebuildingChangesNothing
  intro s hs
  obtain ⟨htable, -⟩ := (cacheInvariant_iff s).mp hs.cache
  refine ⟨?_, ?_, fun p => ?_⟩
  · rw [exec_selm, selectNamed_eq_rebuild (p := Config.polyM) hs.memory (htable .m)]
  · rw [exec_sell, selectNamed_eq_rebuild (p := Config.polyL) hs.memory (htable .l)]
  · rw [exec_selg, selectGeneric_eq_rebuild p hs.memory (htable .g)]

/-- The memory with other contents in the two named stores. -/
def Memory.withNamed (tm tl : TableStore) (m : Memory) : Memory :=
  { tblM := tm, tblL := tl, tblG := m.tblG }

/-- Writing slot `G` neither reads nor writes the named stores (R40). -/
theorem writeEntries_withNamed (tm tl : TableStore) (m : Memory) (tbl : CrcTable) (is : List Byte) :
    (m.withNamed tm tl).writeEntries .g tbl is = (m.writeEntries .g tbl is).withNamed tm tl := by
  induction is generalizing m with
  | nil => rfl
  | cons i is ih => exact ih (m.write .g i (tbl i))

/-- The state with other contents in the two named stores and their flags. -/
def State.withNamed (tm tl : TableStore) (bm bl : Bool) (s : State) : State :=
  { s with mem := s.mem.withNamed tm tl, builtM := bm, builtL := bl }

/-- A generic select neither reads nor writes the named slots (R105). -/
theorem selectGeneric_withNamed (p : Word) (tm tl : TableStore) (bm bl : Bool) (s : State) :
    selectGeneric p (s.withNamed tm tl bm bl) = (selectGeneric p s).withNamed tm tl bm bl := by
  have hmiss : genericMiss p (s.withNamed tm tl bm bl) = genericMiss p s := rfl
  have hbuild : build .g p (s.withNamed tm tl bm bl) = (build .g p s).withNamed tm tl bm bl := by
    simp [build_eq, State.withNamed, writeEntries_withNamed]
  rw [selectGeneric, selectGeneric, hmiss, hbuild]
  cases genericMiss p s with
  | true => rfl
  | false => rfl

/-- Settles O34: the two selects differ in the named slots alone, and there each leaves what it found. -/
theorem genericPathIgnoresTheNamedSlots : Obligations.GenericPathIgnoresTheNamedSlots := by
  unfold Obligations.GenericPathIgnoresTheNamedSlots
  intro s p tm tl bm bl t u ht hu
  obtain rfl : selectGeneric p s = t := by simpa [exec_selg] using ht
  have hshape : .next (selectGeneric p (s.withNamed tm tl bm bl)) = Host.Outcome.next u := hu
  rw [selectGeneric_withNamed] at hshape
  cases hshape
  exact ⟨rfl, rfl, rfl, rfl, rfl, rfl, rfl, rfl⟩

/-- Settles O36: the tag `b` makes the last select miss, and a miss writes all 256 entries. -/
theorem genericSlotKeepsNoStaleEntry : Obligations.GenericSlotKeepsNoStaleEntry := by
  unfold Obligations.GenericSlotKeepsNoStaleEntry
  intro s t a b hab h hf
  have hrun : runWords ([Instr.selg a, .selg b, .selg a].map encode) s =
      .next (selectGeneric a (selectGeneric b (selectGeneric a s))) :=
    calc runWords [encode (.selg a), encode (.selg b), encode (.selg a)] s
        = runWords [encode (.selg b), encode (.selg a)] (selectGeneric a s) :=
          runWords_encode_cons _ hf (exec_selg a s)
      _ = runWords [encode (.selg a)] (selectGeneric b (selectGeneric a s)) :=
          runWords_encode_cons _ (by simpa using hf) (exec_selg b _)
      _ = .next _ := runWords_encode_cons [] (by simpa using hf) (exec_selg a _)
  obtain rfl : selectGeneric a (selectGeneric b (selectGeneric a s)) = t :=
    Host.Outcome.next.inj (hrun.symm.trans h)
  have hmiss : (selectGeneric b (selectGeneric a s)).gpoly ≠ a := by
    rw [selectGeneric_gpoly]
    exact hab.symm
  exact ⟨selectGeneric_gpoly .., tblRead_selectGeneric_miss a _ (.inr hmiss)⟩

/-- Settles O46: the active slot is built, so the select hits and makes active what is active. -/
theorem selectingTheActiveTableAgainIsHarmless : Obligations.SelectingTheActiveTableAgainIsHarmless := by
  unfold Obligations.SelectingTheActiveTableAgainIsHarmless
  intro s sl hc ha
  have hb := hc.activeBuilt sl ha
  cases sl with
  | m => exact congrArg _ (selectNamed_of_active .m _ s hb ha)
  | l => exact congrArg _ (selectNamed_of_active .l _ s hb ha)
  | g => exact congrArg _ (selectGeneric_of_active _ s hb rfl ha)

end Sys2Proof.Machine
end

section
/-! PROOFS. The Table Generator as a linear map of the index (spec/40_table_generator.md R84, R86 to R88) and the
update as the bit-serial process (spec/42_crc_engine.md R118): O23, O26, O25, O27, O38. -/

namespace Sys2Proof.Machine

/-- The invariant of the two-variable loop: XORed with its second variable, its value is the one-variable loop's
(R84). -/
theorem normalLoop_xor_shift (p : Word) (n : Nat) (crc c : Word) :
    normalLoop p n crc c ^^^ (c <<< n) = nsteps p n (crc ^^^ c) := by
  induction n generalizing crc c with
  | zero => simp [normalLoop, nsteps]
  | succ n ih =>
    rw [normalLoop, nsteps, nstep, Nat.add_comm n 1, BitVec.shiftLeft_add]
    split
    · rw [ih, BitVec.shiftLeft_xor_distrib, BitVec.xor_assoc, BitVec.xor_comm p, ← BitVec.xor_assoc]
    · rw [ih, BitVec.shiftLeft_xor_distrib]

/-- Settles O23: after eight steps the second variable has been shifted out. -/
theorem normalGeneratorIsEightSteps : Obligations.NormalGeneratorIsEightSteps := by
  unfold Obligations.NormalGeneratorIsEightSteps
  intro p i
  have hloop := normalLoop_xor_shift p 8 0#32 (zext32 i <<< 24)
  have hout : zext32 i <<< 24 <<< 8 = 0#32 := by
    rw [← BitVec.shiftLeft_add]
    exact BitVec.shiftLeft_eq_zero (by decide)
  rw [hout, BitVec.xor_zero, BitVec.zero_xor] at hloop
  exact hloop

theorem zext32_xor (i j : Byte) : zext32 (i ^^^ j) = zext32 i ^^^ zext32 j := BitVec.setWidth_xor

/-- Settles O26: both generators are loops of a linear step, started at a linear function of the index. -/
theorem tablesAreLinearInTheIndex : Obligations.TablesAreLinearInTheIndex := by
  unfold Obligations.TablesAreLinearInTheIndex
  intro p v i j
  cases v with
  | normal =>
    rw [genTable, normalGeneratorIsEightSteps, normalGeneratorIsEightSteps, normalGeneratorIsEightSteps, zext32_xor,
      BitVec.shiftLeft_xor_distrib, nsteps_xor]
  | reflected =>
    simp only [genTable, genReflected]
    rw [zext32_xor, rsteps_xor]

/-- As long as no set bit reaches the test of the normal step, the loop only shifts. -/
theorem nsteps_of_clear (p : Word) {n : Nat} {x : Word} (h : ∀ j < n, x.getLsbD (31 - j) = false) :
    nsteps p n x = x <<< n := by
  induction n generalizing x with
  | zero => exact (BitVec.shiftLeft_zero x).symm
  | succ n ih =>
    have htop : nstep p x = x <<< 1 := by rw [nstep, h 0 n.succ_pos]; rfl
    have hrest : ∀ j < n, (x <<< 1).getLsbD (31 - j) = false := by
      intro j hj
      have hnext := h (j + 1) (by omega)
      rw [show 31 - (j + 1) = 31 - j - 1 by omega] at hnext
      rw [BitVec.getLsbD_shiftLeft, hnext, Bool.and_false]
    rw [nsteps, htop, ih hrest, ← BitVec.shiftLeft_add, Nat.add_comm 1 n]

/-- As long as no set bit reaches the test of the reflected step, the loop only shifts. -/
theorem rsteps_of_clear (p : Word) {n : Nat} {x : Word} (h : ∀ j < n, x.getLsbD j = false) :
    rsteps p n x = x >>> n := by
  induction n generalizing x with
  | zero => exact (BitVec.ushiftRight_zero x).symm
  | succ n ih =>
    have hlow : rstep p x = x >>> 1 := by rw [rstep, h 0 n.succ_pos]; rfl
    have hrest : ∀ j < n, (x >>> 1).getLsbD j = false := by
      intro j hj
      rw [BitVec.getLsbD_ushiftRight, Nat.add_comm]
      exact h (j + 1) (by omega)
    rw [rsteps, hlow, ih hrest, ← BitVec.shiftRight_add, Nat.add_comm 1 n]

/-- The index `2^k` starts the normal loop with one bit, which reaches the test after `7 - k` shifts and there
becomes the polynomial (R86). -/
theorem genNormal_twoPow (p : Word) {k : Nat} (hk : k < 8) : genNormal p (BitVec.ofNat 8 (2 ^ k)) = nsteps p k p := by
  have hclear : ∀ k < 8, ∀ j < 7 - k, (zext32 (BitVec.ofNat 8 (2 ^ k)) <<< 24).getLsbD (31 - j) = false := by decide
  have htop : ∀ k < 8, zext32 (BitVec.ofNat 8 (2 ^ k)) <<< 24 <<< (7 - k) = 0x80000000#32 := by decide
  have hpoly : nstep p 0x80000000#32 = p := BitVec.zero_xor
  calc genNormal p (BitVec.ofNat 8 (2 ^ k))
      = nsteps p (7 - k + (k + 1)) (zext32 (BitVec.ofNat 8 (2 ^ k)) <<< 24) := by
        rw [normalGeneratorIsEightSteps, show 7 - k + (k + 1) = 8 by omega]
    _ = nsteps p (k + 1) 0x80000000#32 := by
        rw [nsteps_add, nsteps_of_clear p (hclear k hk), htop k hk]
    _ = nsteps p k p := by rw [nsteps, hpoly]

/-- The index `2^(7-k)` starts the reflected loop with one bit, which reaches the test after `7 - k` shifts and there
becomes the polynomial (R86). -/
theorem genReflected_twoPow (p : Word) {k : Nat} (hk : k < 8) :
    genReflected p (BitVec.ofNat 8 (2 ^ (7 - k))) = rsteps p k p := by
  have hclear : ∀ k < 8, ∀ j < 7 - k, (zext32 (BitVec.ofNat 8 (2 ^ (7 - k)))).getLsbD j = false := by decide
  have hlow : ∀ k < 8, zext32 (BitVec.ofNat 8 (2 ^ (7 - k))) >>> (7 - k) = 1#32 := by decide
  have hpoly : rstep p 1#32 = p := BitVec.zero_xor
  calc genReflected p (BitVec.ofNat 8 (2 ^ (7 - k)))
      = rsteps p (7 - k + (k + 1)) (zext32 (BitVec.ofNat 8 (2 ^ (7 - k)))) := by
        rw [show 7 - k + (k + 1) = 8 by omega]
        rfl
    _ = rsteps p (k + 1) 1#32 := by rw [rsteps_add, rsteps_of_clear p (hclear k hk), hlow k hk]
    _ = rsteps p k p := by rw [rsteps, hpoly]

/-- Settles O25: entry 1 and entry 128 are the cases `k = 0`. -/
theorem polynomialStandsInItsTable : Obligations.PolynomialStandsInItsTable := by
  unfold Obligations.PolynomialStandsInItsTable
  intro p
  exact ⟨genNormal_twoPow p (k := 0) (by decide), genReflected_twoPow p (k := 0) (by decide),
    fun k hk => ⟨genNormal_twoPow p hk, genReflected_twoPow p hk⟩⟩

theorem getLsbD_twoPow_byte {n : Nat} (hn : n < 8) (m : Nat) :
    (BitVec.ofNat 8 (2 ^ n)).getLsbD m = decide (n = m) := by
  rw [BitVec.getLsbD_ofNat, Nat.testBit_two_pow]
  by_cases h : n = m
  · simp [← h, hn]
  · simp [h]

/-- A table that is linear in the index is decided by its entries at the powers of two: an index is cleared bit by bit
(R87). -/
theorem crcTable_ext_of_linear {f g : CrcTable} (hf : ∀ i j, f (i ^^^ j) = f i ^^^ f j)
    (hg : ∀ i j, g (i ^^^ j) = g i ^^^ g j)
    (h : ∀ k < 8, f (BitVec.ofNat 8 (2 ^ k)) = g (BitVec.ofNat 8 (2 ^ k))) (i : Byte) : f i = g i := by
  have hbits : ∀ n ≤ 8, ∀ i : Byte, (∀ m, n ≤ m → i.getLsbD m = false) → f i = g i := by
    intro n hn
    induction n with
    | zero =>
      intro i hi
      obtain rfl : i = 0#8 ^^^ 0#8 := BitVec.eq_of_getLsbD_eq fun m _ => by simp [hi m m.zero_le]
      rw [hf, hg, BitVec.xor_self, BitVec.xor_self]
    | succ n ih =>
      intro i hi
      cases hb : i.getLsbD n with
      | false =>
        refine ih (by omega) i fun m hm => ?_
        obtain rfl | hlt := Nat.eq_or_lt_of_le hm
        · exact hb
        · exact hi m hlt
      | true =>
        have hcleared : f (i ^^^ BitVec.ofNat 8 (2 ^ n)) = g (i ^^^ BitVec.ofNat 8 (2 ^ n)) := by
          refine ih (by omega) _ fun m hm => ?_
          rw [BitVec.getLsbD_xor, getLsbD_twoPow_byte (by omega)]
          obtain rfl | hlt := Nat.eq_or_lt_of_le hm
          · simp [hb]
          · simp [hi m hlt, hlt.ne]
        have hsplit : i = i ^^^ BitVec.ofNat 8 (2 ^ n) ^^^ BitVec.ofNat 8 (2 ^ n) := by
          rw [BitVec.xor_assoc, BitVec.xor_self, BitVec.xor_zero]
        rw [hsplit, hf, hg, hcleared, h n (by omega)]
  exact hbits 8 le_rfl i fun m hm => i.getLsbD_of_ge m hm

/-- A `Normal` and a `Reflected` table are equal when they are at the eight entries at which the polynomials' images
stand (R86, R87). -/
theorem genNormal_eq_genReflected {p q : Word} (h : ∀ k < 8, nsteps p k p = rsteps q (7 - k) q) (i : Byte) :
    genNormal p i = genReflected q i := by
  refine crcTable_ext_of_linear (f := genNormal p) (g := genReflected q) (tablesAreLinearInTheIndex p .normal)
    (tablesAreLinearInTheIndex q .reflected) (fun k hk => ?_) i
  have hq := genReflected_twoPow q (k := 7 - k) (by omega)
  rw [show 7 - (7 - k) = k by omega] at hq
  rw [genNormal_twoPow p hk, hq, h k hk]

/-- A polynomial below 2^25, seven places up, keeps all its bits and ends in seven zeros; so the two loops only
shift, and meet (R88). -/
theorem nsteps_eq_rsteps_of_lt {p : Word} (hp : p.toNat < 2 ^ 25) {k : Nat} (hk : k < 8) :
    nsteps p k p = rsteps (p <<< 7) (7 - k) (p <<< 7) := by
  have hhigh (m : Nat) (hm : 25 ≤ m) : p.getLsbD m = false :=
    Nat.testBit_lt_two_pow (hp.trans_le (Nat.pow_le_pow_right (by decide) hm))
  have hlow : ∀ j < 7 - k, (p <<< 7).getLsbD j = false := by
    intro j hj
    rw [BitVec.getLsbD_shiftLeft, decide_eq_true (by omega : j < 7)]
    simp
  rw [nsteps_of_clear p (fun j hj => hhigh (31 - j) (by omega)), rsteps_of_clear _ hlow]
  apply BitVec.eq_of_getLsbD_eq
  intro m hm
  rw [BitVec.getLsbD_ushiftRight, BitVec.getLsbD_shiftLeft, BitVec.getLsbD_shiftLeft,
    show 7 - k + m - 7 = m - k by omega]
  by_cases hmk : m < k
  · simp [hmk, show 7 - k + m < 7 by omega]
  · by_cases hout : 7 - k + m < 32
    · simp [hmk, hm, hout, show ¬ 7 - k + m < 7 by omega]
    · simp [hout, hhigh (m - k) (by omega)]

/-- The two polynomials of a pair of R88. -/
theorem family_polynomials (x : BitVec 24) :
    (0x01000000 + x.setWidth 32 : Word).toNat = 2 ^ 24 + x.toNat ∧
    (0x80000000 + (x.setWidth 32 <<< 7) : Word) = (0x01000000 + x.setWidth 32) <<< 7 := by
  have hx := x.isLt
  constructor
  · simp
    omega
  · apply BitVec.eq_of_toNat_eq
    simp [Nat.shiftLeft_eq]

/-- Settles O27: the polynomial can be read off its table at entry 1 or 128; the pairs agree at the powers of two,
which the shifts show for the family and an evaluation for the single pair. -/
theorem equalTablesWithinAndAcrossConventions : Obligations.EqualTablesWithinAndAcrossConventions := by
  unfold Obligations.EqualTablesWithinAndAcrossConventions
  refine ⟨fun p q v h => ?_, fun x => ?_, genNormal_eq_genReflected (by decide)⟩
  · obtain ⟨hpn, hpr, -⟩ := polynomialStandsInItsTable p
    obtain ⟨hqn, hqr, -⟩ := polynomialStandsInItsTable q
    cases v with
    | normal => exact hpn.symm.trans ((congrFun h 1).trans hqn)
    | reflected => exact hpr.symm.trans ((congrFun h 128).trans hqr)
  · obtain ⟨hp, hq⟩ := family_polynomials x
    have hx := x.isLt
    rw [hq, classify_eq_normal_iff, classify_eq_reflected_iff, hp, BitVec.toNat_shiftLeft, hp, Nat.shiftLeft_eq]
    exact ⟨by omega, by omega, genNormal_eq_genReflected fun k hk => nsteps_eq_rsteps_of_lt (by omega) hk⟩

/-- Under `Reflected` the value is the part that is shifted out and the byte that is looked up (R118). -/
theorem xor_zext32_split (a : Word) (b : Byte) :
    a ^^^ zext32 b = (a >>> 8 <<< 8) ^^^ zext32 (a.extractLsb' 0 8 ^^^ b) := by
  apply BitVec.eq_of_getLsbD_eq
  intro m hm
  by_cases h : m < 8
  · simp [zext32, h, hm]
  · simp [zext32, h, hm, show 8 + (m - 8) = m by omega]

/-- Under `Normal` the value is the part that is shifted out and the byte that is looked up (R118). -/
theorem xor_shift_zext32_split (a : Word) (b : Byte) :
    a ^^^ (zext32 b <<< 24) = (a <<< 8 >>> 8) ^^^ (zext32 (a.extractLsb' 24 8 ^^^ b) <<< 24) := by
  apply BitVec.eq_of_getLsbD_eq
  intro m hm
  by_cases h : m < 24
  · simp [zext32, h, hm, show 8 + m < 32 by omega]
  · simp [zext32, h, hm, show ¬ 8 + m < 32 by omega, show m - 24 < 8 by omega, show 24 + (m - 24) = m by omega]

/-- Settles O38: the eight steps are linear, and on the part without the byte looked up they only shift. -/
theorem updateIsTheBitSerialProcess : Obligations.UpdateIsTheBitSerialProcess := by
  unfold Obligations.UpdateIsTheBitSerialProcess
  refine fun p a b => ⟨?_, ?_⟩
  · have hclear : ∀ j < 8, (a >>> 8 <<< 8).getLsbD j = false := fun j hj => by simp [hj]
    have hshift : a >>> 8 <<< 8 >>> 8 = a >>> 8 := by
      apply BitVec.eq_of_getLsbD_eq
      intro m hm
      by_cases h : 8 + m < 32
      · simp [h]
      · simp [a.getLsbD_of_ge (8 + m) (by omega)]
    rw [update_reflected, xor_zext32_split, rsteps_xor, rsteps_of_clear p hclear, hshift]
    rfl
  · have hclear : ∀ j < 8, (a <<< 8 >>> 8).getLsbD (31 - j) = false := fun j hj => by
      simp [show ¬ 8 + (31 - j) < 32 by omega]
    have hshift : a <<< 8 >>> 8 <<< 8 = a <<< 8 := by
      apply BitVec.eq_of_getLsbD_eq
      intro m hm
      by_cases h : m < 8
      · simp [h]
      · simp [h, hm, show 8 + (m - 8) = m by omega]
    rw [update_normal, xor_shift_zext32_split, nsteps_xor, nsteps_of_clear p hclear, hshift,
      normalGeneratorIsEightSteps]

end Sys2Proof.Machine
end

section
/-! PROOFS. Folds that are suspended and resumed, the presets, and a whole run from reset (spec/42_crc_engine.md
R115 to R117, spec/43_variant_facade.md R133, R136, spec/70_reset_and_hazards.md R180): O47, O48, O54, O55. -/

namespace Sys2Proof.Machine

/-- A state that meets the cache invariant and has no fault runs commands on the table of its active slot. -/
theorem activeTable_of_cacheInvariant {s : State} {sl : Slot} (hc : CacheInvariant s) (hf : s.fault = false)
    (ha : s.active = some sl) : ActiveTable sl (polyOf sl s) s where
  active := ha
  built := hc.activeBuilt sl ha
  poly := rfl
  entry := tblRead_active hc ha
  clear := hf

/-- Settles O47: the invariant makes the active slot's table the one the fold is said of. -/
theorem foldSequenceFoldsTheString : Obligations.FoldSequenceFoldsTheString := by
  unfold Obligations.FoldSequenceFoldsTheString
  intro s sl d hs hf ha
  exact (activeTable_of_cacheInvariant hs.cache hf ha).runWords_fold d

/-- Folding is done string after string (R117). -/
theorem fold_append (tbl : CrcTable) (v : Convention) (a : Word) (d₁ d₂ : List Byte) :
    fold tbl v a (d₁ ++ d₂) = fold tbl v (fold tbl v a d₁) d₂ := by
  induction d₁ generalizing a with
  | nil => rfl
  | cons b d ih => exact ih (update tbl v a b)

/-- The block between commands of a host that has a table selected: no command it then issues raises a fault. -/
structure Ready (s : State) : Prop where
  cache : CacheInvariant s
  clear : s.fault = false
  active : s.active ≠ none

/-- With a table selected every command goes through without a fault and leaves a table selected (R32, R152). -/
theorem Ready.exec {s : State} (h : Ready s) (i : Instr) : ∃ t, exec i s = .next t ∧ Ready t := by
  obtain ⟨t, ht⟩ := exec_goes_on i h.cache
  refine ⟨t, ht, exec_cacheInvariant ht h.cache, ?_, exec_active_ne_none ht h.active⟩
  rcases exec_keeps_fault_or_raises ht with ⟨hf, -⟩ | ⟨-, hnone, -⟩
  · exact hf.trans h.clear
  · exact absurd hnone h.active

/-- With a table selected any commands whatever go through without a fault. -/
theorem Ready.runWords {s : State} (h : Ready s) (cs : List Instr) :
    ∃ t, runWords (cs.map encode) s = .next t ∧ Ready t := by
  induction cs generalizing s with
  | nil => exact ⟨s, rfl, h⟩
  | cons c cs ih =>
    obtain ⟨u, hu, hready⟩ := h.exec c
    obtain ⟨t, ht, htready⟩ := ih hready
    exact ⟨t, (runWords_encode_cons _ h.clear hu).trans ht, htready⟩

/-- The select that asks for the table of a slot of `s` makes the table of that polynomial active, from any later
state (R101 to R103, R117). -/
theorem selectsTable_selectAgain {u : State} (hc : CacheInvariant u) (hf : u.fault = false) (sl : Slot) (s : State) :
    ∃ v, SelectsTable (selectAgain sl s) sl (polyOf sl s) u v := by
  cases sl with
  | m => exact ⟨_, selectsTable_selm hc hf⟩
  | l => exact ⟨_, selectsTable_sell hc hf⟩
  | g => exact ⟨_, selectsTable_selg hc hf s.gpoly⟩

/-- Settles O48: what the disturbing commands leave is a state without a fault, in which the select and `SETACC`
bring back the table and the accumulator. -/
theorem suspendedFoldResumes : Obligations.SuspendedFoldResumes := by
  unfold Obligations.SuspendedFoldResumes
  intro s sl d₁ d₂ cs hs hf ha
  have hactive := activeTable_of_cacheInvariant hs.cache hf ha
  let a := fold (genTable (polyOf sl s) (convOf sl s)) (convOf sl s) s.acc d₁
  let t := respond (a ^^^ 0) { s with acc := a }
  have hsuspend : runWords ((Pseudo.fold d₁).words ++ [encode (.getcrc 0)]) s = .next t :=
    (runWords_append_of_next _ (hactive.runWords_fold d₁)).trans (runWords_encode_cons [] (hactive.setAcc a).clear rfl)
  have hready : Ready t :=
    ⟨(sameCache_respond _ _).cacheInvariant ((sameCache_setAcc s a).cacheInvariant hs.cache), hf, by simp [t, ha]⟩
  obtain ⟨u, hdisturb, hu⟩ := hready.runWords cs
  obtain ⟨v, hselect⟩ := selectsTable_selectAgain hu.cache hu.clear sl s
  have hresumed := hselect.table.setAcc a
  refine ⟨t, a, { v with acc := fold (tableOf (polyOf sl s)) (convOf sl s) a d₂ }, hsuspend,
    congrArg (s.pending ++ [·]) BitVec.xor_zero, ?_, (fold_append ..).symm, hresumed.active, hresumed.clear⟩
  calc runWords (cs.map encode ++ [encode (selectAgain sl s), encode (.setacc a)] ++ (Pseudo.fold d₂).words) t
      = runWords (encode (selectAgain sl s) :: encode (.setacc a) :: (Pseudo.fold d₂).words) u := by
        rw [List.append_assoc]
        exact runWords_append_of_next _ hdisturb
    _ = runWords (encode (.setacc a) :: (Pseudo.fold d₂).words) v := runWords_encode_cons _ hu.clear hselect.next
    _ = runWords (Pseudo.fold d₂).words { v with acc := a } := runWords_encode_cons _ hselect.table.clear rfl
    _ = .next _ := hresumed.runWords_fold d₂

/-- The response of a checksum sequence that goes through depends on the selected polynomial and not on the select
(R130, R136). -/
theorem SelectsTable.pending_of_checksum {sel : Instr} {sl : Slot} {p init xorout : Word} {d : List Byte}
    {s u t : State} (h : SelectsTable sel sl p s u) (hf : s.fault = false)
    (hrun : runWords ((checksumCommands sel init d xorout).map encode) s = .next t) :
    t.pending = s.pending ++ [fold (tableOf p) (classify p) init d ^^^ xorout] := by
  obtain ⟨v, hv, hpending, -⟩ := h.runWords_checksum hf init d xorout
  obtain rfl : v = t := Host.Outcome.next.inj (hv.symm.trans hrun)
  exact hpending

/-- Settles O54: a preset and the generic operation with its constants are checksum sequences of one polynomial. -/
theorem presetsAgreeWithTheGenericOperation : Obligations.PresetsAgreeWithTheGenericOperation := by
  unfold Obligations.PresetsAgreeWithTheGenericOperation
  intro s t u d init hs hf
  have hgeneric (p : Word) := selectsTable_selg hs.cache hf p
  constructor
  · intro ht hu
    have hpreset := (selectsTable_selm hs.cache hf).pending_of_checksum hf ht
    exact hpreset.trans ((hgeneric Config.polyM).pending_of_checksum hf hu).symm
  · intro ht hu
    have hpreset := (selectsTable_sell hs.cache hf).pending_of_checksum hf ht
    exact hpreset.trans ((hgeneric Config.polyL).pending_of_checksum hf hu).symm

/-- Steps of a run that goes on, and then more steps. -/
theorem run_add_of_next {s t : State} {m : Nat} (n : Nat) (h : Sys2Proof.core.run m s = .next t) :
    Sys2Proof.core.run (m + n) s = Sys2Proof.core.run n t := by
  induction m generalizing s with
  | zero =>
    obtain rfl : s = t := Host.Outcome.next.inj h
    rw [Nat.zero_add]
  | succ m ih =>
    rw [Nat.succ_add]
    cases hs : step s with
    | next u =>
      rw [run_next _ hs] at h ⊢
      exact ih h
    | fault r => simp [run_fault m hs] at h
    | refused r => exact absurd hs (step_not_refused s r)

/-- No accepted word delivers a response (R65). -/
theorem acceptWord_delivered {w : CmdWord} {s t : State} (h : acceptWord w s = .next t) :
    t.delivered = s.delivered := by
  rcases acceptWord_cases w s with ⟨-, he⟩ | ⟨-, -, he⟩ | ⟨-, i, -, he⟩ <;> rw [he] at h
  · cases h
    rfl
  · cases h
    exact raiseFault_delivered ..
  · exact exec_delivered h

/-- What is the host's, a sequence of words leaves: what the host does next, and what it has received (R63, R65). -/
theorem runWords_host {ws : List CmdWord} {s t : State} (h : runWords ws s = .next t) :
    t.inbox = s.inbox ∧ t.delivered = s.delivered := by
  induction ws generalizing s with
  | nil =>
    obtain rfl : s = t := Host.Outcome.next.inj h
    exact ⟨rfl, rfl⟩
  | cons w ws ih =>
    cases hw : acceptWord w s with
    | next u =>
      rw [runWords_cons ws hw] at h
      obtain ⟨hinbox, hdelivered⟩ := ih h
      exact ⟨hinbox.trans (acceptWord_inbox hw), hdelivered.trans (acceptWord_delivered hw)⟩
    | fault | refused => simp [runWords, hw] at h

/-- A select, `SETACC`, a word for each byte, and `GETCRC` (R133). -/
theorem length_crc32_words (d : List Byte) (init : Option Word) :
    (Pseudo.crc32 d init).words.length = d.length + 3 := by
  simp [Pseudo.words, Pseudo.expand, checksumCommands, foldCommands]

/-- Settles O55: the words of `CRC32` leave its one response pending, and the last step delivers it. -/
theorem runOfCrc32FromResetDeliversTheChecksum : Obligations.RunOfCrc32FromResetDeliversTheChecksum := by
  unfold Obligations.RunOfCrc32FromResetDeliversTheChecksum
  intro d
  obtain ⟨⟨hcache, hcause, hw⟩, -⟩ := resetMeetsTheInvariant
  let s : State := { State.reset with inbox := [.takeResponse] }
  have hs : BlockInvariant s := ⟨(sameCache_setInbox _ _).cacheInvariant hcache, hcause, hw⟩
  obtain ⟨t, hrun, hpending, -, -, -, hclear⟩ := runWords_crc32 hs rfl d none
  obtain ⟨hinbox, hdelivered⟩ := runWords_host hrun
  have hwords := (run_commands (Pseudo.crc32 d none).words [.takeResponse] State.reset).trans hrun
  rw [length_crc32_words] at hwords
  have hlast : step t = .next (deliver { t with inbox := [] }) := step_event hinbox
  have hdeliver := deliver_of_cons (s := { t with inbox := [] }) hpending
  refine ⟨_, (run_add_of_next 1 hwords).trans (run_next 0 hlast), ?_, ?_⟩
  · rw [hdeliver]
    exact ⟨⟨rfl, rfl⟩, by simp [GoneWrong, hclear]⟩
  · rw [hdeliver]
    exact congrArg (· ++ [_]) hdelivered

end Sys2Proof.Machine
end

section
/-! PROOFS. The assembler (spec/30_encoding.md R73, R74): the check of an operand, the lines of a mnemonic and a
digit string, and the pseudo-instruction `TABLE32`: O58, O59, O60. -/

namespace Sys2Proof.Machine

/-- The check passes the source form of every command, and makes that command of it. -/
theorem finishLine_source (i : Instr) : finishLine i.source = .command i := by
  have hwf : i.source.wf = true := by
    cases i with
    | selm => exact Laws.FitsForm.selm
    | sell => exact Laws.FitsForm.sell
    | selg p => exact Laws.FitsForm.selg p
    | setacc v => exact Laws.FitsForm.setacc v
    | byte b => exact Laws.FitsForm.byte b
    | getcrc x => exact Laws.FitsForm.getcrc x
    | rdtbl k => exact Laws.FitsForm.rdtbl k
  have hsource : sourceCommand i.source = some i := by
    rw [sourceCommand, if_pos hwf]
    cases i <;> simp [Instr.source]
  rw [finishLine, hsource]

/-- A source command that passes the check is the source form of a command, with the very operand (R73). -/
theorem exists_source_of_wf {c : Source} (h : c.wf = true) : ∃ i : Instr, i.source = c := by
  obtain ⟨m, o⟩ := c
  cases o with
  | none =>
    cases m with
    | selm => exact ⟨.selm, rfl⟩
    | sell => exact ⟨.sell, rfl⟩
    | selg | setacc | byte | getcrc | rdtbl => simp [Source.wf, Mnemonic.form, Form.fits] at h
  | some n =>
    cases m with
    | selm | sell => simp [Source.wf, Mnemonic.form, Form.fits] at h
    | selg => exact ⟨.selg (.ofNatLT n (of_decide_eq_true h)), rfl⟩
    | setacc => exact ⟨.setacc (.ofNatLT n (of_decide_eq_true h)), rfl⟩
    | byte => exact ⟨.byte (.ofNatLT n (of_decide_eq_true h)), rfl⟩
    | getcrc => exact ⟨.getcrc (.ofNatLT n (of_decide_eq_true h)), rfl⟩
    | rdtbl => exact ⟨.rdtbl (.ofNatLT n (of_decide_eq_true h)), rfl⟩

theorem finishLine_of_wf {c : Source} (h : c.wf = true) : ∃ i, finishLine c = .command i ∧ i.source = c := by
  obtain ⟨i, rfl⟩ := exists_source_of_wf h
  exact ⟨i, finishLine_source i, rfl⟩

theorem finishLine_of_not_wf {c : Source} (h : c.wf = false) : finishLine c = .rejected .operandDoesNotFit := by
  simp [finishLine, sourceCommand, h]

/-- A comment at the end of a text is what the comment is stripped from (R73). -/
theorem stripComment_comment (line c : List Char) : stripComment (line ++ ';' :: c) = stripComment line := by
  induction line with
  | nil => rfl
  | cons x line ih => rw [List.cons_append, stripComment, stripComment, ih]

/-- A comment changes nothing of what a line is read as (R73). -/
theorem assembleLine_comment (line c : List Char) : assembleLine (line ++ ';' :: c) = assembleLine line := by
  rw [assembleLine, assembleLine, stripComment_comment]

/-- A string of hexadecimal digits behind `0x` is one field. -/
theorem inField_of_literal {ds : List Char} {ns : List Nat} (h : ds.map hexDigitValue = ns.map some) :
    ∀ c ∈ '0' :: 'x' :: ds, inField c = true := by
  have hdigit : ∀ c ∈ ds, inField c = true := by
    intro c hc
    have hmem : hexDigitValue c ∈ ns.map some := h ▸ List.mem_map_of_mem hc
    obtain ⟨n, -, hn⟩ := List.mem_map.mp hmem
    exact inField_of_digit hn.symm
  have h0x : inField '0' = true ∧ inField 'x' = true := by decide
  simpa [h0x] using hdigit

/-- A line of a mnemonic, a space, `0x` and hexadecimal digits: with 1 to 8 digits their value goes to the check,
with any other number of digits it is rejected (R73). -/
theorem assembleLine_digits (m : Mnemonic) {ds : List Char} {ns : List Nat} (h : ds.map hexDigitValue = ns.map some) :
    assembleLine (mnemonicSpelling m ++ [' ', '0', 'x'] ++ ds) =
      if 1 ≤ ds.length ∧ ds.length ≤ 8 then finishLine ⟨m, some (Nat.ofDigits 16 ns.reverse)⟩
      else .rejected .badLiteral := by
  have hline := assembleLine_operand m ('0' :: 'x' :: ds) (inField_of_literal h) (List.cons_ne_nil _ _)
  rw [literalValue_digits ds ns h] at hline
  rw [List.append_assoc]
  by_cases hcount : 1 ≤ ds.length ∧ ds.length ≤ 8
  · rw [if_pos hcount] at hline ⊢
    exact hline
  · rw [if_neg hcount] at hline ⊢
    exact hline

/-- The digits written for a number are its last digits to the base 16. -/
theorem hexDigits_values (k n : Nat) : ∃ ns : List Nat, (hexDigits k n).map hexDigitValue = ns.map some ∧
    Nat.ofDigits 16 ns.reverse = n % 16 ^ k := by
  induction k generalizing n with
  | zero => exact ⟨[], rfl, by simp [Nat.mod_one]⟩
  | succ k ih =>
    obtain ⟨ns, hdigits, hvalue⟩ := ih (n / 16)
    have hlast : hexDigitValue (hexDigit (n % 16)) = some (n % 16) := hexDigitValue_hexDigit (Nat.mod_lt _ (by decide))
    refine ⟨ns ++ [n % 16], ?_, ?_⟩
    · simp [hexDigits, hdigits, hlast]
    · rw [List.reverse_append, List.reverse_singleton, List.singleton_append, Nat.ofDigits_cons, hvalue, pow_succ',
        Nat.mod_mul]

@[simp] theorem length_hexDigits (k n : Nat) : (hexDigits k n).length = k := by
  induction k generalizing n with
  | zero => rfl
  | succ k ih => simp [hexDigits, ih]

/-- A literal of up to eight digits is read back as the number it was written for. -/
theorem assembleLine_hexDigits (m : Mnemonic) {k n : Nat} (hk : 1 ≤ k ∧ k ≤ 8) (hn : n < 16 ^ k) :
    assembleLine (mnemonicSpelling m ++ [' ', '0', 'x'] ++ hexDigits k n) = finishLine ⟨m, some n⟩ := by
  obtain ⟨ns, hdigits, hvalue⟩ := hexDigits_values k n
  rw [assembleLine_digits m hdigits, length_hexDigits, if_pos hk, hvalue, Nat.mod_eq_of_lt hn]

/-- The line written for a command is read as its source form. -/
theorem assembleLine_printCommand (i : Instr) : assembleLine (printCommand i) = finishLine i.source := by
  have h8 : 1 ≤ 8 ∧ 8 ≤ 8 := by decide
  have h2 : 1 ≤ 2 ∧ 2 ≤ 8 := by decide
  cases i with
  | selm => exact assembleLine_alone .selm
  | sell => exact assembleLine_alone .sell
  | selg p => exact assembleLine_hexDigits .selg h8 p.isLt
  | setacc v => exact assembleLine_hexDigits .setacc h8 v.isLt
  | byte b => exact assembleLine_hexDigits .byte h2 b.isLt
  | getcrc x => exact assembleLine_hexDigits .getcrc h8 x.isLt
  | rdtbl k => exact assembleLine_hexDigits .rdtbl h2 k.isLt

/-- Settles O58: the line is read as the command's source form, which passes the check. -/
theorem assemblerReadsBackEveryCommand : Obligations.AssemblerReadsBackEveryCommand := by
  unfold Obligations.AssemblerReadsBackEveryCommand
  intro i c
  rw [assembleLine_comment, assembleLine_printCommand, finishLine_source]
  exact ⟨rfl, rfl⟩

/-- The value of a hexadecimal digit is below 16. -/
theorem hexDigitValue_lt {c : Char} {n : Nat} (h : hexDigitValue c = some n) : n < 16 := by
  unfold hexDigitValue at h
  split at h
  · cases h
    omega
  split at h
  · cases h
    omega
  split at h
  · cases h
    omega
  · cases h

/-- Up to eight hexadecimal digits have a value of at most 32 bits. -/
theorem ofDigits_lt_of_digits {ds : List Char} {ns : List Nat} (h : ds.map hexDigitValue = ns.map some)
    (hlength : ds.length ≤ 8) : Nat.ofDigits 16 ns.reverse < 2 ^ 32 := by
  have hdigit : ∀ n ∈ ns.reverse, n < 16 := by
    intro n hn
    have hmem : some n ∈ ds.map hexDigitValue := h ▸ List.mem_map_of_mem (List.mem_reverse.mp hn)
    obtain ⟨c, -, hc⟩ := List.mem_map.mp hmem
    exact hexDigitValue_lt hc
  have hsame : ds.length = ns.length := by simpa using congrArg List.length h
  calc Nat.ofDigits 16 ns.reverse
      < 16 ^ ns.reverse.length := Nat.ofDigits_lt_base_pow_length (by decide) hdigit
    _ ≤ 16 ^ 8 := Nat.pow_le_pow_right (by decide) (by rw [List.length_reverse]; omega)

/-- An operand below 2^32 fits exactly the forms that take one, when for `U8` it is below 256 (R67, R73). -/
theorem wf_some_iff {m : Mnemonic} {n : Nat} (hn : n < 2 ^ 32) :
    Source.wf ⟨m, some n⟩ = true ↔ m.form ≠ .z ∧ (m.form = .u8 → n < 256) := by
  rw [Source.wf]
  cases m.form with
  | z => simp [Form.fits]
  | u32 => simpa [Form.fits] using hn
  | u8 => simp [Form.fits]

/-- A mnemonic without an operand fits exactly the form `Z` (R67, R73). -/
theorem wf_none_iff (m : Mnemonic) : Source.wf ⟨m, none⟩ = true ↔ m.form = .z := by
  rw [Source.wf]
  cases m.form <;> simp [Form.fits]

/-- Settles O59: the number of digits decides whether there is a literal, and the check whether its whole value
fits. -/
theorem assemblerNeverTruncates : Obligations.AssemblerNeverTruncates := by
  unfold Obligations.AssemblerNeverTruncates
  refine ⟨fun k => hexDigitValue_hexDigit, fun m ds ns h => ?_, fun m => ?_,
    fun c => ⟨finishLine_of_wf, finishLine_of_not_wf⟩⟩
  · rw [assembleLine_digits m h]
    constructor
    · intro hform h1 h8 hu8
      rw [if_pos ⟨h1, h8⟩]
      exact finishLine_of_wf ((wf_some_iff (ofDigits_lt_of_digits h h8)).mpr ⟨hform, hu8⟩)
    · intro hbad
      split
      next hcount =>
        refine ⟨_, finishLine_of_not_wf (Bool.eq_false_iff.mpr fun hwf => ?_)⟩
        obtain ⟨hform, hu8⟩ := (wf_some_iff (ofDigits_lt_of_digits h hcount.2)).mp hwf
        rcases hbad with hz | h0 | h9 | ⟨hform8, hbig⟩
        · exact hform hz
        · omega
        · omega
        · exact absurd (hu8 hform8) (by omega)
      next => exact ⟨_, rfl⟩
  · rw [assembleLine_alone]
    exact ⟨fun hz => finishLine_of_wf ((wf_none_iff m).mpr hz),
      fun hz => finishLine_of_not_wf (Bool.eq_false_iff.mpr fun hwf => hz ((wf_none_iff m).mp hwf))⟩

/-- A field holds no comment. -/
theorem stripComment_of_inField {f : List Char} (h : ∀ c ∈ f, inField c = true) : stripComment f = f := by
  have hstrip := stripComment_field f [] h
  rwa [List.append_nil, stripComment, List.append_nil] at hstrip

/-- A field alone is one field. -/
theorem oneField_of_inField {f : List Char} (h : ∀ c ∈ f, inField c = true) (hf : f ≠ []) : oneField f = some f := by
  have hfields := fields_one f h hf
  rw [stripComment_of_inField h] at hfields
  simp only [oneField, hfields]

/-- A text that starts with a field starts with no blank. -/
theorem dropBlanks_field {f : List Char} (t : List Char) (h : ∀ c ∈ f, inField c = true) (hf : f ≠ []) :
    dropBlanks (f ++ t) = f ++ t := by
  cases f with
  | nil => exact absurd rfl hf
  | cons c f =>
    have hc : inField c = true := h c List.mem_cons_self
    have hblank : ¬ isBlank c = true := by
      rw [inField, Bool.and_eq_true] at hc
      simpa using hc.1
    exact List.dropWhile_cons_of_neg hblank

/-- Behind a name and one space stands the operand. -/
theorem afterField_operand {f o : List Char} (hf : ∀ c ∈ f, inField c = true) (hfn : f ≠ [])
    (ho : ∀ c ∈ o, inField c = true) (hon : o ≠ []) : afterField (f ++ ' ' :: o) = o := by
  have hname : (f ++ ' ' :: o).dropWhile (fun c => !isBlank c) = ' ' :: o := by
    refine (List.dropWhile_append_of_pos fun c hc => ?_).trans (List.dropWhile_cons_of_neg (by decide))
    have hin := hf c hc
    rw [inField, Bool.and_eq_true] at hin
    exact hin.1
  have hspace : dropBlanks (' ' :: o) = dropBlanks (o ++ []) := by
    rw [List.append_nil]
    exact List.dropWhile_cons_of_pos (by decide)
  rw [afterField, dropBlanks_field _ hf hfn, hname, hspace, dropBlanks_field [] ho hon, List.append_nil]

/-- The name of a pseudo-instruction stands inside one field. -/
theorem pseudoSpelling_inField (q : PseudoName) : ∀ c ∈ pseudoSpelling q, inField c = true := by
  cases q <;> simp [pseudoSpelling, inField, isBlank]

theorem pseudoSpelling_ne_nil (q : PseudoName) : pseudoSpelling q ≠ [] := by
  cases q <;> exact List.cons_ne_nil _ _

/-- Every name of a pseudo-instruction names it, and no mnemonic (R74). -/
theorem pseudoNameOf_spelling (q : PseudoName) :
    mnemonicOf (pseudoSpelling q) = none ∧ pseudoNameOf (pseudoSpelling q) = some q := by
  cases q <;> exact ⟨rfl, rfl⟩

/-- A line of a pseudo-instruction's name and an operand of one field (R74). -/
theorem assembleLine_pseudo {q : PseudoName} {o : List Char} {p : Pseudo} (ho : ∀ c ∈ o, inField c = true)
    (hon : o ≠ []) (hp : parsePseudo q o = some p) : assembleLine (pseudoSpelling q ++ ' ' :: o) = .sequence p := by
  have hf := pseudoSpelling_inField q
  have hfn := pseudoSpelling_ne_nil q
  obtain ⟨hmnemonic, hname⟩ := pseudoNameOf_spelling q
  have hstrip : stripComment (pseudoSpelling q ++ ' ' :: o) = pseudoSpelling q ++ ' ' :: o := by
    rw [stripComment_field _ _ hf, stripComment, if_neg (by decide), stripComment_of_inField ho]
  have hafter : afterField (stripComment (pseudoSpelling q ++ ' ' :: o)) = o := by
    rw [hstrip, afterField_operand hf hfn ho hon]
  simp only [assembleLine, fields_two _ o hf hfn ho hon, hmnemonic, hname, hafter, hp]

/-- The eight digits written for a 32-bit word are read back as that word. -/
theorem wordLiteral_hexDigits (p : Word) : wordLiteral ('0' :: 'x' :: hexDigits 8 p.toNat) = some p := by
  obtain ⟨ns, hdigits, hvalue⟩ := hexDigits_values 8 p.toNat
  have hfits : p.toNat < 16 ^ 8 := p.isLt
  rw [wordLiteral, literalValue_digits _ ns hdigits, length_hexDigits, if_pos (by decide), hvalue,
    Nat.mod_eq_of_lt hfits, Option.map_some, BitVec.ofNat_toNat, BitVec.setWidth_eq]

/-- Settles O60: the operand of `TABLE32` is one field and a 32-bit literal; in a program the expansion stands
before the commands of the later lines. -/
theorem assemblerExpandsPseudoInstructions : Obligations.AssemblerExpandsPseudoInstructions := by
  unfold Obligations.AssemblerExpandsPseudoInstructions
  refine ⟨fun p => ?_, fun line q rest is hline hrest => ?_⟩
  · obtain ⟨_, hdigits, -⟩ := hexDigits_values 8 p.toNat
    have hfield := inField_of_literal hdigits
    have hparse : parsePseudo .table32 ('0' :: 'x' :: hexDigits 8 p.toNat) = some (.table32 p) := by
      simp only [parsePseudo, oneField_of_inField hfield (List.cons_ne_nil _ _), wordLiteral_hexDigits, Option.map_some]
    rw [List.append_assoc]
    exact assembleLine_pseudo hfield (List.cons_ne_nil _ _) hparse
  · simp only [assembleProgram, hline, hrest]

end Sys2Proof.Machine
end
